-- ==== Sys2Proof/Word.lean ====
section
/-! DEFINITION. The word types of the Bit-Buffer Engine: a memory byte (R34), the 32-bit registers and the
command word (R20, R22 to R30, R80), the 64-bit data registers (R20). -/

namespace Sys2Proof

/-- A byte of `MEM` (R34). -/
abbrev Byte := BitVec 8

/-- A cursor, a control register or a command word (R7, R80). -/
abbrev Word32 := BitVec 32

/-- A wide data register (R20). -/
abbrev Word64 := BitVec 64

/-- `CAP_BYTES`, the one open parameter (R6): a natural number at most `2^29 - 1`, the bound of R6 held by the
type.  That it is at least 1 is part of the invariant `Safety.Inv`. -/
abbrev CapBytes := Fin (2 ^ 29)

end Sys2Proof
end

