-- ==== Sys2Proof/Syntax.lean ====
section
/-! DEFINITION. The 32 commands of BBE-1 (R83), one constructor per row of spec/opcode_table.json, in the table's
order.  An `FN` command carries its bit count `N`, the 7-bit field `w[14:8]` (R80, R81), whatever its value; the
legal range is WellFormed.lean's and is tested when the command runs (R86). -/

namespace Sys2Proof

/-- A command of the engine (R83). -/
inductive Instr where
  /-- soft reset (R100) -/
  | srst
  /-- create the buffer empty (R101) -/
  | wnew
  /-- import `OFS` bytes already in `MEM` (R102) -/
  | wimp
  /-- open the reader, bit-exact (R103) -/
  | ropen
  /-- open the reader over the finalized byte array (R104) -/
  | ropenb
  /-- restore the read cursor (R105) -/
  | rseek
  /-- pad the write length to a byte boundary (R106) -/
  | padb
  /-- pad the write length by `N` bits (R107) -/
  | pad (n : BitVec 7)
  /-- skip the read cursor to a byte boundary (R108) -/
  | rpadb
  /-- skip the read cursor by `N` bits (R109) -/
  | rskip (n : BitVec 7)
  /-- append the low `N` bits of `VAL` (R121) -/
  | wru (n : BitVec 7)
  /-- overwrite `N` bits at bit offset `OFS` (R122) -/
  | wruat (n : BitVec 7)
  /-- read `N` bits unsigned and advance (R123) -/
  | rdu (n : BitVec 7)
  /-- peek `N` bits unsigned (R124) -/
  | pku (n : BitVec 7)
  /-- append a signed value in `N` bits (R125) -/
  | wrs (n : BitVec 7)
  /-- read a signed `N`-bit field and advance (R126) -/
  | rds (n : BitVec 7)
  /-- peek a signed `N`-bit field (R127) -/
  | pks (n : BitVec 7)
  /-- append `VAL[31:0]` as a varint (R143) -/
  | wvu32
  /-- append `VAL[63:0]` as a varint (R144) -/
  | wvu64
  /-- zigzag `VAL[31:0]`, append as a varint (R145) -/
  | wvs32
  /-- zigzag `VAL[63:0]`, append as a varint (R146) -/
  | wvs64
  /-- read a varint into 32 bits (R149) -/
  | rvu32
  /-- read a varint into 64 bits (R150) -/
  | rvu64
  /-- read a varint, undo zigzag, 32 bits (R151) -/
  | rvs32
  /-- read a varint, undo zigzag, 64 bits (R152) -/
  | rvs64
  /-- peek form of `RVU32` (R153) -/
  | pvu32
  /-- peek form of `RVU64` (R154) -/
  | pvu64
  /-- peek form of `RVS32` (R155) -/
  | pvs32
  /-- peek form of `RVS64` (R156) -/
  | pvs64
  /-- append a ranged integer (R171) -/
  | wrr
  /-- read a ranged integer and advance (R172) -/
  | rdr
  /-- peek a ranged integer (R173) -/
  | pkr
  deriving DecidableEq, Repr

end Sys2Proof
end

