-- ==== Sys2Proof/WellFormed.lean ====
section
/-! DEFINITION. Which commands are well formed: an `FN` command's bit count lies in its legal range (R82, R83
column N, R86).  An `F0` command has no operand and is always well formed. -/

namespace Sys2Proof

/-- The legal counts `1 .. max` (R86). -/
abbrev countInRange (max : Nat) (n : BitVec 7) : Prop := 1 ≤ n.toNat ∧ n.toNat ≤ max

/-- The greatest legal count of an `FN` command, with the command's count; `none` for format `F0` (R83). -/
def Instr.countAndMax : Instr → Option (BitVec 7 × Nat)
  | .srst => none
  | .wnew => none
  | .wimp => none
  | .ropen => none
  | .ropenb => none
  | .rseek => none
  | .padb => none
  | .pad n => some (n, 64)
  | .rpadb => none
  | .rskip n => some (n, 64)
  | .wru n => some (n, 64)
  | .wruat n => some (n, 64)
  | .rdu n => some (n, 64)
  | .pku n => some (n, 64)
  | .wrs n => some (n, 32)
  | .rds n => some (n, 32)
  | .pks n => some (n, 32)
  | .wvu32 => none
  | .wvu64 => none
  | .wvs32 => none
  | .wvs64 => none
  | .rvu32 => none
  | .rvu64 => none
  | .rvs32 => none
  | .rvs64 => none
  | .pvu32 => none
  | .pvu64 => none
  | .pvs32 => none
  | .pvs64 => none
  | .wrr => none
  | .rdr => none
  | .pkr => none

/-- The command's bit count is in its legal range (R86). -/
def Instr.wellFormed (i : Instr) : Bool :=
  match i.countAndMax with
  | none => true
  | some (n, max) => decide (countInRange max n)

end Sys2Proof
end

