-- ==== Sys2Proof/Decode.lean ====
section
/-! DEFINITION. The command decoder (R80, R81, R83, R85, R88), total on every 32-bit word and rejecting by name,
and the encoder.  A word whose only defect is an `FN` count out of range decodes: R86 tests the count after R85,
and the meaning raises `OVF_NBITS` (notes/assumptions/9.md). -/

namespace Sys2Proof

/-- Why a word is no command (R85): each of these raises `ILLEGAL`. -/
inductive DecodeError where
  /-- `w[31:15] != 0` -/
  | reservedBits
  /-- `w[7:0]` is not one of the 32 opcodes -/
  | unassignedOpcode
  /-- an `F0` opcode with `w[14:8] != 0` -/
  | countInF0
  deriving DecidableEq, Repr

/-- Field `OPC`, bits 7:0 (R80). -/
def fieldOpc (w : Word32) : Nat := (w.extractLsb' 0 8).toNat

/-- Field `N`, bits 14:8 (R80, R82). -/
def fieldN (w : Word32) : BitVec 7 := w.extractLsb' 8 7

/-- Field `RSV`, bits 31:15 (R80). -/
def fieldRsv (w : Word32) : BitVec 17 := w.extractLsb' 15 17

/-- An `F0` command: the count field must be 0 (R81, R85). -/
def formatF0 (n : BitVec 7) (i : Instr) : Except DecodeError Instr :=
  if n = 0 then .ok i else .error .countInF0

/-- The opcode map (R83). -/
def decodeOpcode (opc : Nat) (n : BitVec 7) : Except DecodeError Instr :=
  match opc with
  | 0x01 => formatF0 n .srst
  | 0x02 => formatF0 n .wnew
  | 0x03 => formatF0 n .wimp
  | 0x04 => formatF0 n .ropen
  | 0x05 => formatF0 n .ropenb
  | 0x06 => formatF0 n .rseek
  | 0x08 => formatF0 n .padb
  | 0x09 => .ok (.pad n)
  | 0x0A => formatF0 n .rpadb
  | 0x0B => .ok (.rskip n)
  | 0x10 => .ok (.wru n)
  | 0x11 => .ok (.wruat n)
  | 0x12 => .ok (.rdu n)
  | 0x13 => .ok (.pku n)
  | 0x14 => .ok (.wrs n)
  | 0x16 => .ok (.rds n)
  | 0x17 => .ok (.pks n)
  | 0x20 => formatF0 n .wvu32
  | 0x21 => formatF0 n .wvu64
  | 0x22 => formatF0 n .wvs32
  | 0x23 => formatF0 n .wvs64
  | 0x24 => formatF0 n .rvu32
  | 0x25 => formatF0 n .rvu64
  | 0x26 => formatF0 n .rvs32
  | 0x27 => formatF0 n .rvs64
  | 0x28 => formatF0 n .pvu32
  | 0x29 => formatF0 n .pvu64
  | 0x2A => formatF0 n .pvs32
  | 0x2B => formatF0 n .pvs64
  | 0x30 => formatF0 n .wrr
  | 0x31 => formatF0 n .rdr
  | 0x32 => formatF0 n .pkr
  | _ => .error .unassignedOpcode

/-- Decode a command word (R85; the tests of R85 all raise the same fault, so their order shows nowhere). -/
def decode (w : Word32) : Except DecodeError Instr :=
  if fieldRsv w = 0 then decodeOpcode (fieldOpc w) (fieldN w) else .error .reservedBits

/-- The opcode of a command (R83). -/
def opcodeOf : Instr → Nat
  | .srst => 0x01
  | .wnew => 0x02
  | .wimp => 0x03
  | .ropen => 0x04
  | .ropenb => 0x05
  | .rseek => 0x06
  | .padb => 0x08
  | .pad _ => 0x09
  | .rpadb => 0x0A
  | .rskip _ => 0x0B
  | .wru _ => 0x10
  | .wruat _ => 0x11
  | .rdu _ => 0x12
  | .pku _ => 0x13
  | .wrs _ => 0x14
  | .rds _ => 0x16
  | .pks _ => 0x17
  | .wvu32 => 0x20
  | .wvu64 => 0x21
  | .wvs32 => 0x22
  | .wvs64 => 0x23
  | .rvu32 => 0x24
  | .rvu64 => 0x25
  | .rvs32 => 0x26
  | .rvs64 => 0x27
  | .pvu32 => 0x28
  | .pvu64 => 0x29
  | .pvs32 => 0x2A
  | .pvs64 => 0x2B
  | .wrr => 0x30
  | .rdr => 0x31
  | .pkr => 0x32

/-- The count field of a command's word: its count, or 0 for format `F0` (R81). -/
def countOf (i : Instr) : Nat :=
  match i.countAndMax with
  | none => 0
  | some (n, _) => n.toNat

/-- The word of a command: `w = OPC + 256 * N` (R81). -/
def encode (i : Instr) : Word32 := BitVec.ofNat 32 (opcodeOf i + 256 * countOf i)

/-- The command the decoder reads from a row of `nbits` bits whose bits are `w`, the bits above them 0.  A command
is one 32-bit register value (R80, R89): there is no byte order to lay out. -/
def decodeTableWord (nbits w : Nat) : Option Instr :=
  match decode (BitVec.ofNat 32 (w % 2 ^ nbits)) with
  | .ok i => some i
  | .error _ => none

end Sys2Proof
end

