-- ==== Sys2Proof/Config.lean ====
section
/-! DEFINITION. What the spec leaves to an implementation: the memory size that the spec's vectors use, and the
free byte a memory-port read outside `MEM` returns. -/

namespace Sys2Proof

/-- The memory size `State.reset` takes (R6: "`CAP_BYTES` is the one open parameter of the model"; the spec's
vectors "state the value they use (16 unless said otherwise)").
DESIGN CHOICE, unsafe: notes/assumptions/1.md.  Statements about all states hold for every size. -/
def Config.vectorCapBytes : CapBytes := ⟨16, by decide⟩

/-- The byte the `k`-th `MemRd(a)` with `a >= CAP_BYTES` returns: `any value` (R39, 93 U6).  A FREE VALUE, no
body, so nothing can be proved of it: notes/assumptions/4.md. -/
opaque Config.portByteOutside : Nat → Byte

end Sys2Proof
end

