-- ==== Sys2Proof/Machine/State.lean ====
section
/-! DEFINITION. The state of the engine (10_state.md), the host transactions that drive it (R36 to R39), the
reasons a step can stop, and the state after hardware reset (R40, R210). -/

namespace Sys2Proof.Machine

/-- One host transaction (R36 to R39): "The four transactions below are the whole interface." -/
inductive Transaction where
  /-- `WriteReg(r, v)` (R36) -/
  | writeReg (r : Fin 16) (v : Word64)
  /-- `ReadReg(r)` (R37) -/
  | readReg (r : Fin 16)
  /-- `Cmd(w)` (R38), the same as `WriteReg(4, w)` (R36) -/
  | cmd (w : Word32)
  /-- `MemRd(a)` (R39) -/
  | memRd (a : Nat)
  /-- `MemWr(a, b)` (R39) -/
  | memWr (a : Nat) (b : Byte)
  deriving DecidableEq, Repr

/-- The value a read transaction returned to the host (R37, R39). -/
inductive Reply where
  /-- the 64-bit value of `ReadReg` (R37) -/
  | reg (v : Word64)
  /-- the byte of `MemRd` (R39) -/
  | byte (b : Byte)
  deriving DecidableEq, Repr

/-- The classes of fault a command can raise (R180 to R185). They are recorded in the state by `raise` (R186);
none of them stops the machine. -/
inductive FaultClass where
  /-- `OVF_READ` (R181) -/
  | ovfRead
  /-- `OVF_NBITS` (R182) -/
  | ovfNbits
  /-- `OVF_CAP` (R183) -/
  | ovfCap
  /-- `DOMAIN` (R184) -/
  | domain
  /-- `ILLEGAL` (R185) -/
  | illegal
  deriving DecidableEq, Repr

/-- Why a step stops with a fault of the MODEL. -/
inductive Fault where
  /-- Raised by `GetBits` and `PutBits` when asked for a bit at or above `CAP_BITS`, a position the spec says the
  engine never touches (R53, R54, R59).  Safe: no state that meets the invariant of R35 raises it, since every
  command tests its bounds first.  DEDUCED: notes/assumptions/7.md. -/
  | outsideMemory
  deriving DecidableEq, Repr

/-- Why a step is refused. -/
inductive Refusal where
  /-- Raised by an arm of `exec` whose command has no meaning yet.  Safe.  No arm does: all 32 are modelled. -/
  | notModelled (mnemonic : String)
  deriving DecidableEq, Repr

/-- The state of the engine (10_state.md) and, after it, the model's own record of the host's side. -/
structure State where
  /-- data register 0, `VAL` (R20) -/
  val : Word64
  /-- data register 1, `OFS` (R20) -/
  ofs : Word32
  /-- data register 2, `LO` (R20) -/
  lo : Word64
  /-- data register 3, `HI` (R20) -/
  hi : Word64
  /-- `STATUS.FCODE`, bits 3:0 of register 5 (R27) -/
  fcode : BitVec 4
  /-- `STATUS.TRUNC`, bit 4 of register 5 (R27, R32) -/
  trunc : Bool
  /-- `FCMD`, register 6 (R28) -/
  fcmd : Word32
  /-- `CNT`, register 7 (R26) -/
  cnt : Word32
  /-- `LEN`, register 8 (R22) -/
  len : Word32
  /-- `RLEN`, register 10 (R24) -/
  rlen : Word32
  /-- `POS`, register 11 (R25) -/
  pos : Word32
  /-- `MEM` (R34): the bytes that differ from `unlistedByte`, by rising address -/
  mem : List Host.Cell
  /-- `CAP_BYTES` (R6), hardwired: no transaction changes it; register 12 reads 8 times it (R29) -/
  capBytes : CapBytes
  /-- the model's own: the host transactions still to come, in the order the host issues them (R62);
  notes/assumptions/3.md -/
  pending : List Transaction
  /-- the model's own: the values returned to the host so far, oldest first; notes/assumptions/5.md -/
  replies : List Reply
  /-- the model's own: how many free bytes (93 U6) have been drawn; notes/assumptions/4.md, 6.md -/
  freeDraws : Nat
  deriving DecidableEq, Repr

/-- What one step answers. -/
abbrev Result := Host.Outcome State Fault Refusal

/-- Hardware reset of an engine of `cap` bytes whose memory comes up holding `mem` (R40, R210, R211): every register
0, `STATUS` 0, `MEM` unspecified, so any `mem` (notes/assumptions/11.md). -/
def State.powerOn (cap : CapBytes) (mem : List Host.Cell) : State where
  val := 0
  ofs := 0
  lo := 0
  hi := 0
  fcode := 0
  trunc := false
  fcmd := 0
  cnt := 0
  len := 0
  rlen := 0
  pos := 0
  mem := mem
  capBytes := cap
  pending := []
  replies := []
  freeDraws := 0

/-- The one reset state the host's interface asks for: 16 bytes (notes/assumptions/1.md) and a memory that lists
nothing (notes/assumptions/2.md). -/
def State.reset : State := State.powerOn Config.vectorCapBytes []

end Sys2Proof.Machine
end

