-- ==== Sys2Proof/Machine/Flags.lean ====
section
/-! DEFINITION. The status register `STATUS` (R27), its one flag `TRUNC` (R32) and the `fault` line (R190).  There
are no other flags (R32).  What is no storage of its own is computed: notes/assumptions/12.md. -/

namespace Sys2Proof.Machine

/-- The code of a fault class in `STATUS.FCODE` (R27, R181 to R185). -/
def faultCode : FaultClass → BitVec 4
  | .ovfRead => 1
  | .ovfNbits => 2
  | .ovfCap => 3
  | .domain => 4
  | .illegal => 5

/-- `STATUS` as it reads: `FCODE` in bits 3:0, `TRUNC` in bit 4, bits 31:5 zero (R27). -/
def statusWord (s : State) : Word32 := (0#27 ++ BitVec.ofBool s.trunc) ++ s.fcode

/-- The level of the `fault` output line: `STATUS.FCODE != 0` (R190). -/
def faultLine (s : State) : Bool := decide (s.fcode ≠ 0)

end Sys2Proof.Machine
end

