-- ==== Sys2Proof/Machine/Memory.lean ====
section
/-! DEFINITION. The byte memory `MEM` and the bit stream over it: one byte (R34, R39), one stream bit (R51), a bit
field (R52 to R54), the byte-by-byte form of the two primitives (R55) and `MemRead`/`MemWrite` (R9). -/

namespace Sys2Proof.Machine

/-- What a byte the memory does not list reads as.  The spec gives none after hardware reset (R40, 93 U1).
DESIGN CHOICE, unsafe: notes/assumptions/2.md. -/
def unlistedByte : Byte := 0

/-- The canonical form: addresses strictly rising, no cell equal to what an unlisted address reads as. -/
abbrev memoryWf (m : List Host.Cell) : Prop :=
  m.Pairwise (fun c d => c.1 < d.1) ∧ ∀ c ∈ m, c.2 ≠ unlistedByte

/-- Every listed address exists in a memory of `cap` bytes (R34). -/
abbrev memoryBelow (cap : Nat) (m : List Host.Cell) : Prop := ∀ c ∈ m, c.1 < cap

/-- `MEM[a]`. -/
def readByte : List Host.Cell → Nat → Byte
  | [], _ => unlistedByte
  | (x, b) :: rest, a => if x = a then b else readByte rest a

/-- Put a cell at its place by address. -/
def insertCell (c : Host.Cell) : List Host.Cell → List Host.Cell
  | [] => [c]
  | d :: rest => if c.1 < d.1 then c :: d :: rest else d :: insertCell c rest

/-- Forget what is listed at `a`. -/
def eraseCell (m : List Host.Cell) (a : Nat) : List Host.Cell := m.filter (fun c => c.1 ≠ a)

/-- `MEM[a] <- b`, keeping the canonical form. -/
def writeByte (m : List Host.Cell) (a : Nat) (b : Byte) : List Host.Cell :=
  if b = unlistedByte then eraseCell m a else insertCell (a, b) (eraseCell m a)

/-- `MEM[a] <- 0` for every `a < cap` (R101): cells below `cap` go, as an unlisted byte reads as 0. -/
def zeroFill (cap : Nat) (m : List Host.Cell) : List Host.Cell := m.filter (fun c => cap ≤ c.1)

/-- Stream bit `k`: "bit `k mod 8` of byte `MEM[floor(k / 8)]`" (R51). -/
def streamBit (m : List Host.Cell) (k : Nat) : Bool := (readByte m (k / 8)).getLsbD (k % 8)

/-- A byte with its bit `i` set to `v`. -/
def setBit (b : Byte) (i : Nat) (v : Bool) : Byte :=
  if v then b ||| BitVec.ofNat 8 (2 ^ i) else b &&& ~~~BitVec.ofNat 8 (2 ^ i)

/-- Set stream bit `k` to `v`: a read-modify-write of its byte (R51, R58). -/
def setStreamBit (m : List Host.Cell) (k : Nat) (v : Bool) : List Host.Cell :=
  writeByte m (k / 8) (setBit (readByte m (k / 8)) (k % 8) v)

/-- The `n`-bit natural whose bit `i` is stream bit `off + i` (R53). -/
def fieldAt (m : List Host.Cell) (off : Nat) : Nat → Nat
  | 0 => 0
  | n + 1 => fieldAt m off n + (if streamBit m (off + n) then 2 ^ n else 0)

/-- Set stream bit `off + i` to bit `i` of `v` for `i < n`, no other bit (R54). -/
def putField (m : List Host.Cell) (off : Nat) : Nat → Nat → List Host.Cell
  | 0, _ => m
  | n + 1, v => setStreamBit (putField m off n v) (off + n) (v.testBit n)

/-- `GetBits(off, n)` (R53); `none` where the field does not lie in a memory of `capBits` bits. -/
def getBits (capBits : Nat) (m : List Host.Cell) (off n : Nat) : Option Nat :=
  if off + n ≤ capBits then some (fieldAt m off n) else none

/-- `PutBits(off, n, v)` (R54); `none` where the field does not lie in a memory of `capBits` bits. -/
def putBits (capBits : Nat) (m : List Host.Cell) (off n v : Nat) : Option (List Host.Cell) :=
  if off + n ≤ capBits then some (putField m off n v) else none

/-- The bytes `bs` by `PutBits` at consecutive 8-bit offsets from `off` (R140, R142). -/
def putBytes (capBits : Nat) (m : List Host.Cell) (off : Nat) : List Nat → Option (List Host.Cell)
  | [] => some m
  | b :: bs =>
    match putBits capBits m off 8 b with
    | none => none
    | some m' => putBytes capBits m' (off + 8) bs

/-! The byte-by-byte construction of R55, written as the spec writes it.  The commands use `getBits` and
`putBits`; that the two forms agree is a statement. -/

/-- `m(k) = 2^k - 1` as a byte (R55). -/
def maskByte (k : Nat) : Byte := BitVec.ofNat 8 (2 ^ k - 1)

/-- `PutByte(off, n, v)`, `n <= 8` (R55). -/
def putByte (m : List Host.Cell) (off n v : Nat) : List Host.Cell :=
  let p := off / 8
  let u := off % 8
  let f := 8 - u
  let v' : Byte := BitVec.ofNat 8 v &&& maskByte n
  if n ≤ f then
    writeByte m p ((readByte m p &&& ~~~(maskByte n <<< u)) ||| (v' <<< u))
  else
    let m' := writeByte m p ((readByte m p &&& maskByte u) ||| (v' <<< u))
    writeByte m' (p + 1) ((readByte m' (p + 1) &&& ~~~maskByte (n - f)) ||| (v' >>> f))

/-- `GetByte(off, n)`, `n <= 8` (R55). -/
def getByte (m : List Host.Cell) (off n : Nat) : Byte :=
  let p := off / 8
  let u := off % 8
  let f := 8 - u
  if n ≤ f then (readByte m p >>> u) &&& maskByte n
  else ((readByte m p >>> u) ||| (readByte m (p + 1) <<< f)) &&& maskByte n

/-- The first `k` whole bytes of `PutBits` in byte form (R55). -/
def putWholeBytes (m : List Host.Cell) (off v : Nat) : Nat → List Host.Cell
  | 0 => m
  | k + 1 => putByte (putWholeBytes m off v k) (off + 8 * k) 8 (v >>> (8 * k))

/-- `PutBits` in byte form (R55). -/
def putFieldByBytes (m : List Host.Cell) (off n v : Nat) : List Host.Cell :=
  let m' := putWholeBytes m off v (n / 8)
  if n % 8 = 0 then m' else putByte m' (off + 8 * (n / 8)) (n % 8) (v >>> (8 * (n / 8)))

/-- The first `k` whole bytes of `GetBits` in byte form (R55). -/
def getWholeBytes (m : List Host.Cell) (off : Nat) : Nat → Nat
  | 0 => 0
  | k + 1 => getWholeBytes m off k + (getByte m (off + 8 * k) 8).toNat <<< (8 * k)

/-- `GetBits` in byte form (R55). -/
def fieldByBytes (m : List Host.Cell) (off n : Nat) : Nat :=
  getWholeBytes m off (n / 8) + (getByte m (off + 8 * (n / 8)) (n % 8)).toNat <<< (8 * (n / 8))

/-- `MemRead(addr, n)`: the sum over `i < n` of `MEM[addr+i] * 2^(8i)` (R9). -/
def memRead (m : List Host.Cell) (addr : Nat) : Nat → Nat
  | 0 => 0
  | n + 1 => memRead m addr n + (readByte m (addr + n)).toNat * 2 ^ (8 * n)

/-- `MemWrite(addr, n, v)`: `MEM[addr+i] <- v[8i+7:8i]` for `i < n` (R9). -/
def memWrite (m : List Host.Cell) (addr : Nat) : Nat → Nat → List Host.Cell
  | 0, _ => m
  | n + 1, v => writeByte (memWrite m addr n v) (addr + n) (BitVec.ofNat 8 (v >>> (8 * n)))

end Sys2Proof.Machine
end

