-- ==== Sys2Proof/Machine/Operands.lean ====
section
/-! DEFINITION. Operand forms and codings: the low bits of `VAL` (R82), `bitlen` and `ceil8` (R8), the
sign-indicator coding (R120), the zigzag mapping (R141), the varint byte string (R140, R142), the ranged operands
(R170).  Signed readings are two's complement (93 G1).  PRESUMED: notes/assumptions/8.md. -/

namespace Sys2Proof.Machine

/-- `bitlen(v)`: `bitlen(0) = 0`, `bitlen(v) = floor(log2 v) + 1` (R8). -/
def bitlen (v : Nat) : Nat := if v = 0 then 0 else Nat.log2 v + 1

/-- `ceil8(b) = 8 * ceil(b / 8)` (R8). -/
def ceil8 (b : Nat) : Nat := 8 * ((b + 7) / 8)

/-- How many bits reach the next byte boundary: `(8 - b mod 8) mod 8` (R106, R108). -/
def padBits (b : Nat) : Nat := (8 - b % 8) % 8

/-- `VAL mod 2^n`, the operand of an `n`-bit unsigned write (R121, R122). -/
def lowBits (v : Word64) (n : Nat) : Nat := v.toNat % 2 ^ n

/-- `VAL[31:0]` (R21). -/
def low32 (v : Word64) : Word32 := v.setWidth 32

/-- The sign bit `sb = 2^(n-1)` of an `n`-bit field (R120). -/
def signBit (n : Nat) : Nat := 2 ^ (n - 1)

/-- `SEnc(n, v)`: a 32-bit pattern to an `n`-bit field (R120). -/
def sEnc (n : Nat) (v : Word32) : Nat :=
  if n = 32 then v.toNat
  else if v.getLsbD 31 then (~~~v ||| BitVec.ofNat 32 (signBit n)).toNat % 2 ^ n
  else (v &&& ~~~BitVec.ofNat 32 (signBit n)).toNat % 2 ^ n

/-- `SDec(n, f)`: an `n`-bit field to a signed integer (R120). -/
def sDec (n f : Nat) : Int :=
  if n = 32 then (BitVec.ofNat 32 f).toInt
  else if f.testBit (n - 1) then -(((f % signBit n : Nat) : Int) + 1)
  else (f : Int)

/-- `ZZ_W(v) = ((v << 1) ^ (v >>a (W-1))) mod 2^W` (R141). -/
def zigzag {W : Nat} (v : BitVec W) : BitVec W := (v <<< 1) ^^^ v.sshiftRight (W - 1)

/-- `UZ_W(z) = (z >> 1) ^ (2^W - 1 if z[0] = 1 else 0)` (R141). -/
def unzigzag {W : Nat} (z : BitVec W) : BitVec W :=
  (z >>> 1) ^^^ (if z.getLsbD 0 then BitVec.allOnes W else 0)

/-- The byte count of a varint: `max(1, ceil(bitlen(v) / 7))` (R142). -/
def varCount (v : Nat) : Nat := max 1 ((bitlen v + 6) / 7)

/-- Byte `j` of the `k` bytes of a varint: group `v[7j+6:7j]` and the continuation bit (R140, R142). -/
def varByte (v k j : Nat) : Nat := (v >>> (7 * j)) % 128 ||| (if j < k - 1 then 0x80 else 0)

/-- The bytes of a varint, in the order they are laid (R142). -/
def varBytes (v : Nat) : List Nat := (List.range (varCount v)).map (varByte v (varCount v))

/-- `lo <= v and v <= hi` on signed 64-bit readings (R171). -/
abbrev inRange (lo v hi : Word64) : Prop := lo.toInt ≤ v.toInt ∧ v.toInt ≤ hi.toInt

/-- The span `hi - lo` as a natural, for `lo <= hi` (R170). -/
def span (lo hi : Word64) : Nat := (hi.toInt - lo.toInt).toNat

/-- The field width of a ranged integer: `nb = bitlen(hi - lo)` (R170). -/
def rangedBits (lo hi : Word64) : Nat := bitlen (span lo hi)

end Sys2Proof.Machine
end

