-- ==== Sys2Proof/Machine/Ops.lean ====
section
/-! DEFINITION. The named updates of the state and the operations the commands share: fault entry and its return
(R186, R189), the fault gate and the bit-count test of the prologue (R84, R86), the capacity and read-overflow tests
(R181, R183), the appending and reading of a field (R58), the varint procedures (R142, R147, R148). -/

namespace Sys2Proof.Machine

/-- `CAP_BITS = 8 * CAP_BYTES` (R6). -/
def State.capBits (s : State) : Nat := 8 * s.capBytes.val

/-- A bit count or bit position as a 32-bit register holds it (R7).  In a state that meets the invariant every value
stored is at most `CAP_BITS < 2^32`, so nothing is lost.  DEDUCED: notes/assumptions/14.md. -/
def word32 (n : Nat) : Word32 := BitVec.ofNat 32 n

/-! ## Named updates -/

/-- The fault record (R186): `STATUS.FCODE` and `FCMD`, nothing else. -/
def State.recordFault (s : State) (f : FaultClass) (w : Word32) : State := { s with fcode := faultCode f, fcmd := w }

/-- Every register as `SRST` leaves it, `MEM` kept (R100). -/
def State.softReset (s : State) : State :=
  { s with val := 0, ofs := 0, lo := 0, hi := 0, len := 0, rlen := 0, pos := 0, cnt := 0,
           fcode := 0, trunc := false, fcmd := 0 }

/-- `MEM` becomes `m` and `LEN` becomes `len`, `CNT` becomes `n`: the end of a write command. -/
def State.written (s : State) (m : List Host.Cell) (len n : Nat) : State :=
  { s with mem := m, len := word32 len, cnt := word32 n }

/-- `MEM` becomes all 0 and `LEN` 0 (R101). -/
def State.created (s : State) : State := { s with mem := zeroFill s.capBytes.val s.mem, len := 0 }

/-- `LEN <- b` (R102). -/
def State.setLen (s : State) (b : Nat) : State := { s with len := word32 b }

/-- `RLEN <- b`, `POS <- 0` (R103, R104). -/
def State.openReader (s : State) (b : Nat) : State := { s with rlen := word32 b, pos := 0 }

/-- `POS <- OFS` (R105). -/
def State.seek (s : State) : State := { s with pos := s.ofs }

/-- `LEN <- LEN + n`, `CNT <- n`, `MEM` kept (R106, R107). -/
def State.padded (s : State) (n : Nat) : State := { s with len := word32 (s.len.toNat + n), cnt := word32 n }

/-- `POS <- POS + n`, `CNT <- n` (R108, R109). -/
def State.skipped (s : State) (n : Nat) : State := { s with pos := word32 (s.pos.toNat + n), cnt := word32 n }

/-- `VAL <- v`, `CNT <- n`: a peek (R124). -/
def State.peeked (s : State) (v : Word64) (n : Nat) : State := { s with val := v, cnt := word32 n }

/-- `VAL <- v`, `POS <- POS + n`, `CNT <- n`: a consuming read (R123). -/
def State.consumed (s : State) (v : Word64) (n : Nat) : State :=
  { s with val := v, pos := word32 (s.pos.toNat + n), cnt := word32 n }

/-- `VAL <- v`, `CNT <- p - POS`, `STATUS.TRUNC <- t`: a varint peek (R148). -/
def State.peekedVar (s : State) (v : Word64) (p : Nat) (t : Bool) : State :=
  { s with val := v, cnt := word32 (p - s.pos.toNat), trunc := t }

/-- `VAL <- v`, `CNT <- p - POS`, `STATUS.TRUNC <- t`, `POS <- p`: a varint read (R148). -/
def State.consumedVar (s : State) (v : Word64) (p : Nat) (t : Bool) : State :=
  { s with val := v, cnt := word32 (p - s.pos.toNat), trunc := t, pos := word32 p }

/-- The memory port's write (R39). -/
def State.withMem (s : State) (m : List Host.Cell) : State := { s with mem := m }

/-- The host writes a data register (R36). -/
def State.setVal (s : State) (v : Word64) : State := { s with val := v }

/-- The host writes a data register (R36). -/
def State.setOfs (s : State) (v : Word32) : State := { s with ofs := v }

/-- The host writes a data register (R36). -/
def State.setLo (s : State) (v : Word64) : State := { s with lo := v }

/-- The host writes a data register (R36). -/
def State.setHi (s : State) (v : Word64) : State := { s with hi := v }

/-- A read transaction's value goes to the host (R37, R39). -/
def State.replied (s : State) (r : Reply) : State := { s with replies := s.replies ++ [r] }

/-- One free byte has been drawn (93 U6). -/
def State.drawn (s : State) : State := { s with freeDraws := s.freeDraws + 1 }

/-- The host transactions still to come. -/
def State.withPending (s : State) (ts : List Transaction) : State := { s with pending := ts }

/-! ## Fault entry and return -/

/-- `raise F(w)`, fault entry (R186). -/
def raise (f : FaultClass) (w : Word32) (s : State) : Result := .next (s.recordFault f w)

/-- The return from the faulted state that a command gives: soft reset (R100, R189). -/
def softReset (s : State) : Result := .next s.softReset

/-! ## The prologue and the bounds tests -/

/-- Step 1, the fault gate: while `FCODE != 0` the command is refused, "no state changes at all" (R84). -/
def gated (s : State) (body : Result) : Result := if s.fcode = 0 then body else .next s

/-- Step 3, the bit-count range of an `FN` command (R86). -/
def counted (max : Nat) (n : BitVec 7) (w : Word32) (s : State) (body : Result) : Result :=
  if countInRange max n then body else raise .ovfNbits w s

/-- The capacity test: bits up to position `last` must fit (R183). -/
def fits (last : Nat) (w : Word32) (s : State) (body : Result) : Result :=
  if s.capBits < last then raise .ovfCap w s else body

/-- The read-overflow test `RLEN - POS >= need` (R181), on integers. -/
def remaining (need : Nat) (w : Word32) (s : State) (body : Result) : Result :=
  if s.rlen.toNat < s.pos.toNat + need then raise .ovfRead w s else body

/-! ## Fields -/

/-- `PutBits(off, n, v)`, then `LEN <- len`, `CNT <- n` (R121, R122, R125, R171). -/
def storeField (s : State) (off n v len : Nat) : Result :=
  match putBits s.capBits s.mem off n v with
  | some m => .next (s.written m len n)
  | none => .fault .outsideMemory

/-- An appending command after its own tests: the capacity test, `PutBits(LEN, n, v)`, `LEN <- LEN + n`, `CNT <- n`
(R121, R125, R171). -/
def appendField (s : State) (n v : Nat) (w : Word32) : Result :=
  fits (s.len.toNat + n) w s (storeField s s.len.toNat n v (s.len.toNat + n))

/-- A reading command after its own tests: the read-overflow test, then `GetBits(POS, n)` handed on (R123, R124). -/
def fetchField (s : State) (n : Nat) (w : Word32) (body : Nat → Result) : Result :=
  remaining n w s
    (match getBits s.capBits s.mem s.pos.toNat n with
     | some f => body f
     | none => .fault .outsideMemory)

/-! ## Varints -/

/-- `VarEnc(W, v)` (R142); `W` shows only in the bound of `v`. -/
def varEnc (v : Nat) (w : Word32) (s : State) : Result :=
  fits (s.len.toNat + 8 * varCount v) w s
    (match putBytes s.capBits s.mem s.len.toNat (varBytes v) with
     | some m => .next (s.written m (s.len.toNat + 8 * varCount v) (8 * varCount v))
     | none => .fault .outsideMemory)

/-- The loop of `VarDec(W)` (R147, R157).  `avail` is `floor((RLEN - p) / 8)`, the whole bytes left, so that the
loop's test `RLEN - p >= 8` is that `avail` is not 0.  It answers `(acc, p, trunc)`. -/
def varDecLoop (W capBits : Nat) (m : List Host.Cell) : Nat → Nat → Nat → Nat → Option (Nat × Nat × Bool)
  | 0, p, _, acc => some (acc, p, true)
  | avail + 1, p, j, acc =>
    match getBits capBits m p 8 with
    | none => none
    | some b =>
      let acc' := (acc ||| (b % 128) <<< (7 * j)) % 2 ^ W
      if b < 128 then some (acc', p + 8, false) else varDecLoop W capBits m avail (p + 8) (j + 1) acc'

/-- `VarDec(W)` (R147), handed on as `(acc, p, trunc)`. -/
def varDec (W : Nat) (s : State) (body : Nat → Nat → Bool → Result) : Result :=
  match varDecLoop W s.capBits s.mem ((s.rlen.toNat - s.pos.toNat) / 8) s.pos.toNat 0 0 with
  | some (acc, p, t) => body acc p t
  | none => .fault .outsideMemory

/-- `UZ_32(acc)` sign-extended to 64 bits (R148). -/
def unzigzag32 (acc : Nat) : Word64 := (unzigzag (BitVec.ofNat 32 acc)).signExtend 64

/-- `UZ_64(acc)` (R148). -/
def unzigzag64 (acc : Nat) : Word64 := unzigzag (BitVec.ofNat 64 acc)

end Sys2Proof.Machine
end

