-- ==== Sys2Proof/Machine/Buffer.lean ====
section
/-! DEFINITION. Buffer, cursor and padding commands (40_buffer_cursor.md, R100 to R109). -/

namespace Sys2Proof.Machine

/-- `SRST` (R100): the one command the fault gate lets through (R84). -/
def execSrst (s : State) : Result := softReset s

/-- `WNEW` (R101). -/
def execWnew (s : State) : Result := gated s (.next s.created)

/-- `WIMP` (R102): `8 * OFS` is taken without wrap. -/
def execWimp (s : State) : Result :=
  gated s (fits (8 * s.ofs.toNat) (encode .wimp) s (.next (s.setLen (8 * s.ofs.toNat))))

/-- `ROPEN` (R103). -/
def execRopen (s : State) : Result := gated s (.next (s.openReader s.len.toNat))

/-- `ROPENB` (R104). -/
def execRopenb (s : State) : Result := gated s (.next (s.openReader (ceil8 s.len.toNat)))

/-- `RSEEK` (R105). -/
def execRseek (s : State) : Result :=
  gated s (if s.rlen.toNat < s.ofs.toNat then raise .ovfRead (encode .rseek) s else .next s.seek)

/-- `PADB` (R106). -/
def execPadb (s : State) : Result := gated s (.next (s.padded (padBits s.len.toNat)))

/-- `PAD n` (R107). -/
def execPad (n : BitVec 7) (s : State) : Result :=
  gated s (counted 64 n (encode (.pad n)) s
    (fits (s.len.toNat + n.toNat) (encode (.pad n)) s (.next (s.padded n.toNat))))

/-- `RPADB` (R108). -/
def execRpadb (s : State) : Result :=
  gated s (remaining (padBits s.pos.toNat) (encode .rpadb) s (.next (s.skipped (padBits s.pos.toNat))))

/-- `RSKIP n` (R109). -/
def execRskip (n : BitVec 7) (s : State) : Result :=
  gated s (counted 64 n (encode (.rskip n)) s
    (remaining n.toNat (encode (.rskip n)) s (.next (s.skipped n.toNat))))

end Sys2Proof.Machine
end

