-- ==== Sys2Proof/Machine/Fixed.lean ====
section
/-! DEFINITION. Fixed-width field commands (41_fixed_width.md, R121 to R127). -/

namespace Sys2Proof.Machine

/-- `WRU n` (R121). -/
def execWru (n : BitVec 7) (s : State) : Result :=
  gated s (counted 64 n (encode (.wru n)) s (appendField s n.toNat (lowBits s.val n.toNat) (encode (.wru n))))

/-- `WRUAT n` (R122): the sum `OFS + N` is taken without wrap. -/
def execWruat (n : BitVec 7) (s : State) : Result :=
  gated s (counted 64 n (encode (.wruat n)) s
    (fits (s.ofs.toNat + n.toNat) (encode (.wruat n)) s
      (storeField s s.ofs.toNat n.toNat (lowBits s.val n.toNat) (max s.len.toNat (s.ofs.toNat + n.toNat)))))

/-- `RDU n` (R123). -/
def execRdu (n : BitVec 7) (s : State) : Result :=
  gated s (counted 64 n (encode (.rdu n)) s
    (fetchField s n.toNat (encode (.rdu n)) fun f => .next (s.consumed (BitVec.ofNat 64 f) n.toNat)))

/-- `PKU n` (R124). -/
def execPku (n : BitVec 7) (s : State) : Result :=
  gated s (counted 64 n (encode (.pku n)) s
    (fetchField s n.toNat (encode (.pku n)) fun f => .next (s.peeked (BitVec.ofNat 64 f) n.toNat)))

/-- `WRS n` (R125). -/
def execWrs (n : BitVec 7) (s : State) : Result :=
  gated s (counted 32 n (encode (.wrs n)) s (appendField s n.toNat (sEnc n.toNat (low32 s.val)) (encode (.wrs n))))

/-- `RDS n` (R126). -/
def execRds (n : BitVec 7) (s : State) : Result :=
  gated s (counted 32 n (encode (.rds n)) s
    (fetchField s n.toNat (encode (.rds n)) fun f =>
      .next (s.consumed (BitVec.ofInt 64 (sDec n.toNat f)) n.toNat)))

/-- `PKS n` (R127). -/
def execPks (n : BitVec 7) (s : State) : Result :=
  gated s (counted 32 n (encode (.pks n)) s
    (fetchField s n.toNat (encode (.pks n)) fun f =>
      .next (s.peeked (BitVec.ofInt 64 (sDec n.toNat f)) n.toNat)))

end Sys2Proof.Machine
end

