-- ==== Sys2Proof/Machine/Ranged.lean ====
section
/-! DEFINITION. Minimal-bit ranged integer commands (43_ranged.md, R171 to R173). -/

namespace Sys2Proof.Machine

/-- `WRR` (R171). -/
def execWrr (s : State) : Result :=
  gated s
    (if inRange s.lo s.val s.hi then
      appendField s (rangedBits s.lo s.hi) (span s.lo s.val) (encode .wrr)
    else raise .domain (encode .wrr) s)

/-- `RDR` (R172). -/
def execRdr (s : State) : Result :=
  gated s
    (if s.hi.toInt < s.lo.toInt then raise .domain (encode .rdr) s
    else
      fetchField s (rangedBits s.lo s.hi) (encode .rdr) fun d =>
        .next (s.consumed (s.lo + BitVec.ofNat 64 d) (rangedBits s.lo s.hi)))

/-- `PKR` (R173). -/
def execPkr (s : State) : Result :=
  gated s
    (if s.hi.toInt < s.lo.toInt then raise .domain (encode .pkr) s
    else
      fetchField s (rangedBits s.lo s.hi) (encode .pkr) fun d =>
        .next (s.peeked (s.lo + BitVec.ofNat 64 d) (rangedBits s.lo s.hi)))

end Sys2Proof.Machine
end

