-- ==== Sys2Proof/Machine/Varint.lean ====
section
/-! DEFINITION. Base-128 variable-length integer commands (42_varint.md, R143 to R146, R149 to R156). -/

namespace Sys2Proof.Machine

/-- `WVU32` (R143). -/
def execWvu32 (s : State) : Result := gated s (varEnc (low32 s.val).toNat (encode .wvu32) s)

/-- `WVU64` (R144). -/
def execWvu64 (s : State) : Result := gated s (varEnc s.val.toNat (encode .wvu64) s)

/-- `WVS32` (R145). -/
def execWvs32 (s : State) : Result := gated s (varEnc (zigzag (low32 s.val)).toNat (encode .wvs32) s)

/-- `WVS64` (R146). -/
def execWvs64 (s : State) : Result := gated s (varEnc (zigzag s.val).toNat (encode .wvs64) s)

/-- `RVU32` (R149). -/
def execRvu32 (s : State) : Result :=
  gated s (varDec 32 s fun acc p t => .next (s.consumedVar (BitVec.ofNat 64 acc) p t))

/-- `RVU64` (R150). -/
def execRvu64 (s : State) : Result :=
  gated s (varDec 64 s fun acc p t => .next (s.consumedVar (BitVec.ofNat 64 acc) p t))

/-- `RVS32` (R151). -/
def execRvs32 (s : State) : Result :=
  gated s (varDec 32 s fun acc p t => .next (s.consumedVar (unzigzag32 acc) p t))

/-- `RVS64` (R152). -/
def execRvs64 (s : State) : Result :=
  gated s (varDec 64 s fun acc p t => .next (s.consumedVar (unzigzag64 acc) p t))

/-- `PVU32` (R153). -/
def execPvu32 (s : State) : Result :=
  gated s (varDec 32 s fun acc p t => .next (s.peekedVar (BitVec.ofNat 64 acc) p t))

/-- `PVU64` (R154). -/
def execPvu64 (s : State) : Result :=
  gated s (varDec 64 s fun acc p t => .next (s.peekedVar (BitVec.ofNat 64 acc) p t))

/-- `PVS32` (R155). -/
def execPvs32 (s : State) : Result :=
  gated s (varDec 32 s fun acc p t => .next (s.peekedVar (unzigzag32 acc) p t))

/-- `PVS64` (R156). -/
def execPvs64 (s : State) : Result :=
  gated s (varDec 64 s fun acc p t => .next (s.peekedVar (unzigzag64 acc) p t))

end Sys2Proof.Machine
end

