-- ==== Sys2Proof/Machine/Dispatch.lean ====
section
/-! DEFINITION. The meaning of every command, one arm per constructor (R87: "The command's own rule runs"). -/

namespace Sys2Proof.Machine

open Sys2Proof

def exec (i : Instr) (s : State) : Host.Outcome State Fault Refusal :=
  match i with
  | .srst => Sys2Proof.Machine.execSrst s
  | .wnew => Sys2Proof.Machine.execWnew s
  | .wimp => Sys2Proof.Machine.execWimp s
  | .ropen => Sys2Proof.Machine.execRopen s
  | .ropenb => Sys2Proof.Machine.execRopenb s
  | .rseek => Sys2Proof.Machine.execRseek s
  | .padb => Sys2Proof.Machine.execPadb s
  | .pad n => Sys2Proof.Machine.execPad n s
  | .rpadb => Sys2Proof.Machine.execRpadb s
  | .rskip n => Sys2Proof.Machine.execRskip n s
  | .wru n => Sys2Proof.Machine.execWru n s
  | .wruat n => Sys2Proof.Machine.execWruat n s
  | .rdu n => Sys2Proof.Machine.execRdu n s
  | .pku n => Sys2Proof.Machine.execPku n s
  | .wrs n => Sys2Proof.Machine.execWrs n s
  | .rds n => Sys2Proof.Machine.execRds n s
  | .pks n => Sys2Proof.Machine.execPks n s
  | .wvu32 => Sys2Proof.Machine.execWvu32 s
  | .wvu64 => Sys2Proof.Machine.execWvu64 s
  | .wvs32 => Sys2Proof.Machine.execWvs32 s
  | .wvs64 => Sys2Proof.Machine.execWvs64 s
  | .rvu32 => Sys2Proof.Machine.execRvu32 s
  | .rvu64 => Sys2Proof.Machine.execRvu64 s
  | .rvs32 => Sys2Proof.Machine.execRvs32 s
  | .rvs64 => Sys2Proof.Machine.execRvs64 s
  | .pvu32 => Sys2Proof.Machine.execPvu32 s
  | .pvu64 => Sys2Proof.Machine.execPvu64 s
  | .pvs32 => Sys2Proof.Machine.execPvs32 s
  | .pvs64 => Sys2Proof.Machine.execPvs64 s
  | .wrr => Sys2Proof.Machine.execWrr s
  | .rdr => Sys2Proof.Machine.execRdr s
  | .pkr => Sys2Proof.Machine.execPkr s

end Sys2Proof.Machine
end

