-- ==== Sys2Proof/Machine/Transactions.lean ====
section
/-! DEFINITION. The host transactions (R36 to R39) and the decode prologue of a command word (R84 to R87). -/

namespace Sys2Proof.Machine

/-- `Cmd(w)` (R38).  A word that decodes runs as its command, whose meaning holds the fault gate and the bit-count
test (R84, R86, R87); any other word is refused by the gate or raises `ILLEGAL` (R84, R85). -/
def performCmd (w : Word32) (s : State) : Result :=
  match decode w with
  | .ok i => exec i s
  | .error _ => gated s (raise .illegal w s)

/-- `WriteReg(r, v)` (R36): read-only and unassigned registers ignore it. -/
def performWriteReg (r : Fin 16) (v : Word64) (s : State) : Result :=
  match r.val with
  | 0 => .next (s.setVal v)
  | 1 => .next (s.setOfs (low32 v))
  | 2 => .next (s.setLo v)
  | 3 => .next (s.setHi v)
  | 4 => performCmd (low32 v) s
  | _ => .next s

/-- The value `ReadReg(r)` returns, zero-extended; 0 for `CMD` and for 13 to 15 (R37). -/
def readReg (s : State) (r : Fin 16) : Word64 :=
  match r.val with
  | 0 => s.val
  | 1 => s.ofs.setWidth 64
  | 2 => s.lo
  | 3 => s.hi
  | 5 => (statusWord s).setWidth 64
  | 6 => s.fcmd.setWidth 64
  | 7 => s.cnt.setWidth 64
  | 8 => s.len.setWidth 64
  | 9 => BitVec.ofNat 64 ((s.len.toNat + 7) / 8)
  | 10 => s.rlen.setWidth 64
  | 11 => s.pos.setWidth 64
  | 12 => BitVec.ofNat 64 s.capBits
  | _ => 0

/-- `MemRd(a)` (R39): `MEM[a]`, or outside `MEM` a free byte (93 U6). -/
def performMemRd (a : Nat) (s : State) : Result :=
  if a < s.capBytes.val then .next (s.replied (.byte (readByte s.mem a)))
  else .next (s.drawn.replied (.byte (Config.portByteOutside s.freeDraws)))

/-- `MemWr(a, b)` (R39): no effect outside `MEM`. -/
def performMemWr (a : Nat) (b : Byte) (s : State) : Result :=
  if a < s.capBytes.val then .next (s.withMem (writeByte s.mem a b)) else .next s

/-- One host transaction (R36 to R39), whether or not `FCODE` is 0 except as the command's own gate says. -/
def perform (t : Transaction) (s : State) : Result :=
  match t with
  | .writeReg r v => performWriteReg r v s
  | .readReg r => .next (s.replied (.reg (readReg s r)))
  | .cmd w => performCmd w s
  | .memRd a => performMemRd a s
  | .memWr a b => performMemWr a b s

/-- What the engine does next: the host's next transaction, taken off the list first (R62); with none, the engine
"is idle and holds its state" (R205). -/
def performNext (s : State) : Result :=
  match s.pending with
  | [] => .next s
  | t :: rest => perform t (s.withPending rest)

/-- `s` with the command word of `nbits` bits `w`, the bits above them 0, as the host's next transaction. -/
def placeCommand (s : State) (nbits w : Nat) : State :=
  s.withPending (.cmd (BitVec.ofNat 32 (w % 2 ^ nbits)) :: s.pending)

end Sys2Proof.Machine
end

