-- ==== Sys2Proof/Machine/Step.lean ====
section
/-! DEFINITION. One step of the engine: one host transaction (R12, R36 to R39, R62).  There is no program counter
and no fetch (R31): "The program is the sequence of host actions", which State holds in `pending`
(notes/assumptions/3.md). -/

namespace Sys2Proof.Machine

/-- One step (R62: every transaction "is atomic and takes effect in the order the host issues it"). -/
def step (s : State) : Host.Outcome State Fault Refusal := performNext s

/-- `s` with that command as the host's very next transaction, so that the next step runs it: the place a command
comes from (R65: "Commands come from the host through `CMD`, never from `MEM`"). -/
def State.withFetchWord (s : State) (nbits w : Nat) : State := placeCommand s nbits w

end Sys2Proof.Machine
end

