-- ==== Sys2Proof/Safety.lean ====
section
/-! DEFINITION. What the statements speak of: the invariants of R35, the table of which fault a command raises and
when (R187, R191), and which commands write which register (R21 to R32). -/

namespace Sys2Proof.Machine

/-- The invariants of R35 and the bound `1 <= CAP_BYTES` of R6, with the memory's canonical form and its extent
(R34). -/
structure State.Inv (s : State) : Prop where
  /-- `1 <= CAP_BYTES` (R6) -/
  capPos : 1 ≤ s.capBytes.val
  /-- `LEN <= CAP_BITS` (R22, R35) -/
  lenLe : s.len.toNat ≤ s.capBits
  /-- `POS <= RLEN` (R25, R35) -/
  posLe : s.pos.toNat ≤ s.rlen.toNat
  /-- `RLEN <= CAP_BITS` (R24, R35) -/
  rlenLe : s.rlen.toNat ≤ s.capBits
  /-- `FCODE <= 5` (R27, R35) -/
  fcodeLe : s.fcode.toNat ≤ 5
  /-- `FCMD = 0` when `FCODE = 0` (R28, R35) -/
  fcmdZero : s.fcode = 0 → s.fcmd = 0
  /-- `CNT <= CAP_BITS` (R26, R35) -/
  cntLe : s.cnt.toNat ≤ s.capBits
  /-- the memory is in its canonical form -/
  memWf : memoryWf s.mem
  /-- no byte is listed outside `MEM` (R34) -/
  memBelow : memoryBelow s.capBytes.val s.mem

/-- The bits a command needs below `RLEN`, the column `OVF_READ` of R191; `none` for a command that never raises
it. -/
def readNeed (s : State) : Instr → Option Nat
  | .rpadb => some (padBits s.pos.toNat)
  | .rskip n => some n.toNat
  | .rdu n => some n.toNat
  | .pku n => some n.toNat
  | .rds n => some n.toNat
  | .pks n => some n.toNat
  | .rdr => some (rangedBits s.lo s.hi)
  | .pkr => some (rangedBits s.lo s.hi)
  | .srst | .wnew | .wimp | .ropen | .ropenb | .rseek | .padb | .pad _ | .wru _ | .wruat _ | .wrs _
  | .wvu32 | .wvu64 | .wvs32 | .wvs64 | .rvu32 | .rvu64 | .rvs32 | .rvs64
  | .pvu32 | .pvu64 | .pvs32 | .pvs64 | .wrr => none

/-- The bit position a command needs within `CAP_BITS`, the column `OVF_CAP` of R191. -/
def capNeed (s : State) : Instr → Option Nat
  | .wimp => some (8 * s.ofs.toNat)
  | .pad n => some (s.len.toNat + n.toNat)
  | .wru n => some (s.len.toNat + n.toNat)
  | .wruat n => some (s.ofs.toNat + n.toNat)
  | .wrs n => some (s.len.toNat + n.toNat)
  | .wvu32 => some (s.len.toNat + 8 * varCount (low32 s.val).toNat)
  | .wvu64 => some (s.len.toNat + 8 * varCount s.val.toNat)
  | .wvs32 => some (s.len.toNat + 8 * varCount (zigzag (low32 s.val)).toNat)
  | .wvs64 => some (s.len.toNat + 8 * varCount (zigzag s.val).toNat)
  | .wrr => some (s.len.toNat + rangedBits s.lo s.hi)
  | .srst | .wnew | .ropen | .ropenb | .rseek | .padb | .rpadb | .rskip _ | .rdu _ | .pku _ | .rds _ | .pks _
  | .rvu32 | .rvu64 | .rvs32 | .rvs64 | .pvu32 | .pvu64 | .pvs32 | .pvs64 | .rdr | .pkr => none

/-- The column `DOMAIN` of R191: the operands are out of the domain. -/
def outOfDomain (s : State) : Instr → Bool
  | .wrr => decide (s.val.toInt < s.lo.toInt ∨ s.hi.toInt < s.val.toInt)
  | .rdr => decide (s.hi.toInt < s.lo.toInt)
  | .pkr => decide (s.hi.toInt < s.lo.toInt)
  | .srst | .wnew | .wimp | .ropen | .ropenb | .rseek | .padb | .pad _ | .rpadb | .rskip _
  | .wru _ | .wruat _ | .rdu _ | .pku _ | .wrs _ | .rds _ | .pks _
  | .wvu32 | .wvu64 | .wvs32 | .wvs64 | .rvu32 | .rvu64 | .rvs32 | .rvs64
  | .pvu32 | .pvu64 | .pvs32 | .pvs64 => false

/-- `OFS > RLEN`, the entry of `RSEEK` in the column `OVF_READ` of R191. -/
def seekPastEnd (s : State) (i : Instr) : Bool := decide (i = .rseek ∧ s.rlen.toNat < s.ofs.toNat)

/-- The fault a command raises in a state that is not faulted: the first failing test in the order of R187,
`OVF_NBITS`, `DOMAIN`, then `OVF_CAP` or `OVF_READ`, by the table of R191; `none` where it raises none. -/
def firstFault (i : Instr) (s : State) : Option FaultClass :=
  if i.wellFormed = false then some .ovfNbits
  else if outOfDomain s i then some .domain
  else if ((capNeed s i).any fun last => decide (s.capBits < last)) then some .ovfCap
  else if ((readNeed s i).any fun need => decide (s.rlen.toNat < s.pos.toNat + need)) || seekPastEnd s i then
    some .ovfRead
  else none

/-- `m'` is `m` with bit `i` of `v` at stream bit `off + i` for `i < n` and no other bit changed (R54). -/
abbrev bitsWritten (m m' : List Host.Cell) (off n v : Nat) : Prop :=
  ∀ k, streamBit m' k = if off ≤ k ∧ k < off + n then v.testBit (k - off) else streamBit m k

/-- Every byte that holds none of the stream bits `[off, off + n)` reads as before (R58, R60). -/
abbrev otherBytesKept (m m' : List Host.Cell) (off n : Nat) : Prop :=
  ∀ a, 8 * a + 8 ≤ off ∨ off + n ≤ 8 * a → readByte m' a = readByte m a

/-- `b` is the number of bits needed for `v`: "the least `b` with `v < 2^b`" (R8, R170). -/
abbrev isBitlen (v b : Nat) : Prop := v < 2 ^ b ∧ ∀ c < b, 2 ^ c ≤ v

/-- `k` is the byte count of the varint of `v`: the least `k >= 1` whose `7k` payload bits hold `v` (R140, R142). -/
abbrev isVarCount (v k : Nat) : Prop := 1 ≤ k ∧ v < 2 ^ (7 * k) ∧ ∀ c < k, 1 ≤ c → 2 ^ (7 * c) ≤ v

/-- The zigzag mapping on signed readings: `2x` for `x >= 0`, `-2x - 1` for `x < 0` (R141). -/
def zigzagOf (x : Int) : Nat := if 0 ≤ x then (2 * x).toNat else (-2 * x - 1).toNat

/-- The inverse zigzag mapping: `z/2` for even `z`, `-(z+1)/2` for odd `z` (R141). -/
def unzigzagOf (z : Nat) : Int := if z % 2 = 0 then ((z / 2 : Nat) : Int) else -(((z + 1) / 2 : Nat) : Int)

/-- The opcodes of format `F0` (R83). -/
def opcodesF0 : List Nat :=
  [0x01, 0x02, 0x03, 0x04, 0x05, 0x06, 0x08, 0x0A, 0x20, 0x21, 0x22, 0x23, 0x24, 0x25, 0x26, 0x27,
   0x28, 0x29, 0x2A, 0x2B, 0x30, 0x31, 0x32]

/-- The opcodes of format `FN` whose count is 1 to 64 (R83). -/
def opcodesFN64 : List Nat := [0x09, 0x0B, 0x10, 0x11, 0x12, 0x13]

/-- The opcodes of format `FN` whose count is 1 to 32 (R83). -/
def opcodesFN32 : List Nat := [0x14, 0x16, 0x17]

/-- `OPC`, `N` and `RSV` of a command word (R80), as numbers. -/
abbrev wordOpc (w : Word32) : Nat := w.toNat % 2 ^ 8

/-- Field `N` of a command word (R80), as a number. -/
abbrev wordN (w : Word32) : Nat := w.toNat / 2 ^ 8 % 2 ^ 7

/-- Field `RSV` of a command word (R80), as a number. -/
abbrev wordRsv (w : Word32) : Nat := w.toNat / 2 ^ 15

/-- R85's condition for `ILLEGAL`. -/
abbrev illegalWord (w : Word32) : Prop :=
  wordRsv w ≠ 0 ∨ wordOpc w ∉ opcodesF0 ++ opcodesFN64 ++ opcodesFN32 ∨ (wordOpc w ∈ opcodesF0 ∧ wordN w ≠ 0)

/-- R86's condition for `OVF_NBITS`, on a word that R85 lets pass. -/
abbrev countOutOfRange (w : Word32) : Prop :=
  wordRsv w = 0 ∧
    ((wordOpc w ∈ opcodesFN64 ∧ (wordN w = 0 ∨ 64 < wordN w)) ∨ (wordOpc w ∈ opcodesFN32 ∧ (wordN w = 0 ∨ 32 < wordN w)))

/-- A well-formed command word with its count in range (R83, R88). -/
abbrev legalWord (w : Word32) : Prop :=
  wordRsv w = 0 ∧
    ((wordOpc w ∈ opcodesF0 ∧ wordN w = 0) ∨
     (wordOpc w ∈ opcodesFN64 ∧ 1 ≤ wordN w ∧ wordN w ≤ 64) ∨
     (wordOpc w ∈ opcodesFN32 ∧ 1 ≤ wordN w ∧ wordN w ≤ 32))

/-- The value that the first `k` varint bytes from stream bit `p` carry: the sum of the payload groups, group `i`
weighing `2^(7i)` (R140, R147). -/
def varGroups (m : List Host.Cell) (p : Nat) : Nat → Nat
  | 0 => 0
  | k + 1 => varGroups m p k + (fieldAt m (p + 8 * k) 8 % 128) * 2 ^ (7 * k)

/-- The first `k` varint bytes from stream bit `p` all have the continuation bit (R140). -/
abbrev varContinues (m : List Host.Cell) (p k : Nat) : Prop := ∀ i < k, 128 ≤ fieldAt m (p + 8 * i) 8

/-- The whole bytes left to the reader, `floor((RLEN - POS) / 8)` (R147). -/
def wholeBytesLeft (s : State) : Nat := (s.rlen.toNat - s.pos.toNat) / 8

/-- A varint of `k + 1` bytes stands whole at the read cursor (R140, R147). -/
abbrev varTerminated (s : State) (k : Nat) : Prop :=
  k < wholeBytesLeft s ∧ varContinues s.mem s.pos.toNat k ∧ fieldAt s.mem (s.pos.toNat + 8 * k) 8 < 128

/-- The whole bytes run out before one without the continuation bit (R32, R147). -/
abbrev varTruncated (s : State) : Prop := varContinues s.mem s.pos.toNat (wholeBytesLeft s)

/-- The commands whose result goes to `VAL` (R20, R21). -/
def writesVal : Instr → Bool
  | .srst | .rdu _ | .pku _ | .rds _ | .pks _ | .rvu32 | .rvu64 | .rvs32 | .rvs64
  | .pvu32 | .pvu64 | .pvs32 | .pvs64 | .rdr | .pkr => true
  | .wnew | .wimp | .ropen | .ropenb | .rseek | .padb | .pad _ | .rpadb | .rskip _ | .wru _ | .wruat _ | .wrs _
  | .wvu32 | .wvu64 | .wvs32 | .wvs64 | .wrr => false

/-- The commands that write `LEN` (R22). -/
def writesLen : Instr → Bool
  | .srst | .wnew | .wimp | .padb | .pad _ | .wru _ | .wruat _ | .wrs _ | .wvu32 | .wvu64 | .wvs32 | .wvs64 | .wrr => true
  | .ropen | .ropenb | .rseek | .rpadb | .rskip _ | .rdu _ | .pku _ | .rds _ | .pks _
  | .rvu32 | .rvu64 | .rvs32 | .rvs64 | .pvu32 | .pvu64 | .pvs32 | .pvs64 | .rdr | .pkr => false

/-- The commands that write `RLEN` (R24). -/
def writesRlen : Instr → Bool
  | .srst | .ropen | .ropenb => true
  | .wnew | .wimp | .rseek | .padb | .pad _ | .rpadb | .rskip _ | .wru _ | .wruat _ | .rdu _ | .pku _
  | .wrs _ | .rds _ | .pks _ | .wvu32 | .wvu64 | .wvs32 | .wvs64 | .rvu32 | .rvu64 | .rvs32 | .rvs64
  | .pvu32 | .pvu64 | .pvs32 | .pvs64 | .wrr | .rdr | .pkr => false

/-- The commands that write `POS` (R25). -/
def writesPos : Instr → Bool
  | .srst | .ropen | .ropenb | .rseek | .rdu _ | .rds _ | .rvu32 | .rvu64 | .rvs32 | .rvs64 | .rdr
  | .rpadb | .rskip _ => true
  | .wnew | .wimp | .padb | .pad _ | .wru _ | .wruat _ | .pku _ | .wrs _ | .pks _
  | .wvu32 | .wvu64 | .wvs32 | .wvs64 | .pvu32 | .pvu64 | .pvs32 | .pvs64 | .wrr | .pkr => false

/-- The commands that write `CNT`: all but `WNEW`, `WIMP`, `ROPEN`, `ROPENB`, `RSEEK` (R26). -/
def writesCnt : Instr → Bool
  | .wnew | .wimp | .ropen | .ropenb | .rseek => false
  | .srst | .padb | .pad _ | .rpadb | .rskip _ | .wru _ | .wruat _ | .rdu _ | .pku _ | .wrs _ | .rds _ | .pks _
  | .wvu32 | .wvu64 | .wvs32 | .wvs64 | .rvu32 | .rvu64 | .rvs32 | .rvs64
  | .pvu32 | .pvu64 | .pvs32 | .pvs64 | .wrr | .rdr | .pkr => true

/-- The commands that write `STATUS.TRUNC` (R27, R32). -/
def writesTrunc : Instr → Bool
  | .srst | .rvu32 | .rvu64 | .rvs32 | .rvs64 | .pvu32 | .pvu64 | .pvs32 | .pvs64 => true
  | .wnew | .wimp | .ropen | .ropenb | .rseek | .padb | .pad _ | .rpadb | .rskip _ | .wru _ | .wruat _
  | .rdu _ | .pku _ | .wrs _ | .rds _ | .pks _ | .wvu32 | .wvu64 | .wvs32 | .wvs64 | .wrr | .rdr | .pkr => false

/-- The commands that append at `LEN` (R60). -/
def appends : Instr → Bool
  | .wru _ | .wrs _ | .wvu32 | .wvu64 | .wvs32 | .wvs64 | .wrr => true
  | .srst | .wnew | .wimp | .ropen | .ropenb | .rseek | .padb | .pad _ | .rpadb | .rskip _ | .wruat _
  | .rdu _ | .pku _ | .rds _ | .pks _
  | .rvu32 | .rvu64 | .rvs32 | .rvs64 | .pvu32 | .pvu64 | .pvs32 | .pvs64 | .rdr | .pkr => false

/-- The commands that read `OFS` (R21). -/
def readsOfs : Instr → Bool
  | .wimp | .rseek | .wruat _ => true
  | .srst | .wnew | .ropen | .ropenb | .padb | .pad _ | .rpadb | .rskip _ | .wru _
  | .rdu _ | .pku _ | .wrs _ | .rds _ | .pks _ | .wvu32 | .wvu64 | .wvs32 | .wvs64
  | .rvu32 | .rvu64 | .rvs32 | .rvs64 | .pvu32 | .pvu64 | .pvs32 | .pvs64 | .wrr | .rdr | .pkr => false

/-- The commands that read `LO` and `HI` (R21). -/
def readsBounds : Instr → Bool
  | .wrr | .rdr | .pkr => true
  | .srst | .wnew | .wimp | .ropen | .ropenb | .rseek | .padb | .pad _ | .rpadb | .rskip _ | .wru _ | .wruat _
  | .rdu _ | .pku _ | .wrs _ | .rds _ | .pks _ | .wvu32 | .wvu64 | .wvs32 | .wvs64
  | .rvu32 | .rvu64 | .rvs32 | .rvs64 | .pvu32 | .pvu64 | .pvs32 | .pvs64 => false

/-- How many low bits of `VAL` a command reads (R21). -/
def valBitsRead : Instr → Nat
  | .wru n => n.toNat
  | .wruat n => n.toNat
  | .wrs _ | .wvu32 | .wvs32 => 32
  | .wvu64 | .wvs64 | .wrr => 64
  | .srst | .wnew | .wimp | .ropen | .ropenb | .rseek | .padb | .pad _ | .rpadb | .rskip _
  | .rdu _ | .pku _ | .rds _ | .pks _
  | .rvu32 | .rvu64 | .rvs32 | .rvs64 | .pvu32 | .pvu64 | .pvs32 | .pvs64 | .rdr | .pkr => 0

/-- The reading commands that leave `POS`, each with its consuming form (R124, R127, R153 to R156, R173). -/
def consumingForm : Instr → Option Instr
  | .pku n => some (.rdu n)
  | .pks n => some (.rds n)
  | .pvu32 => some .rvu32
  | .pvu64 => some .rvu64
  | .pvs32 => some .rvs32
  | .pvs64 => some .rvs64
  | .pkr => some .rdr
  | .srst | .wnew | .wimp | .ropen | .ropenb | .rseek | .padb | .pad _ | .rpadb | .rskip _ | .wru _ | .wruat _
  | .rdu _ | .wrs _ | .rds _ | .wvu32 | .wvu64 | .wvs32 | .wvs64 | .rvu32 | .rvu64 | .rvs32 | .rvs64
  | .wrr | .rdr => none

/-- The commands that change `MEM` (R60). -/
def writesMem : Instr → Bool
  | .wnew | .wru _ | .wruat _ | .wrs _ | .wvu32 | .wvu64 | .wvs32 | .wvs64 | .wrr => true
  | .srst | .wimp | .ropen | .ropenb | .rseek | .padb | .pad _ | .rpadb | .rskip _ | .rdu _ | .pku _ | .rds _ | .pks _
  | .rvu32 | .rvu64 | .rvs32 | .rvs64 | .pvu32 | .pvu64 | .pvs32 | .pvs64 | .rdr | .pkr => false

end Sys2Proof.Machine
end

