-- ==== Sys2Proof/Certificates/Slice0/Obligations.lean ====
section
/-! DEFINITION. The statements for the provers.  Each docstring cites the rule of spec/ that the statement
formalises.  A next state is written as a record update of the state before, so that every field not named is said
to be unchanged: the frame. -/

open Sys2Proof Sys2Proof.Machine

/-! ## Encoding -/

/-- A few words the spec writes out decode to the commands it says they are (R90, R100, R109, R122, R125, R171). -/
def Obligations.SpecWordsDecode : Prop :=
  decode 0x00000001 = .ok .srst ∧ decode 0x00000D10 = .ok (.wru 13) ∧ decode 0x00000027 = .ok .rvs64 ∧
  decode 0x0000050B = .ok (.rskip 5) ∧ decode 0x00000611 = .ok (.wruat 6) ∧ decode 0x00000414 = .ok (.wrs 4) ∧
  decode 0x00000030 = .ok .wrr

/-- Decoding an encoded command gives it back, for every command and every value of its count field (R81, R83). -/
def Obligations.DecodeOfEncode : Prop := ∀ i : Instr, decode (encode i) = .ok i

/-- A word that decodes is the encoding of its command: no bit of it is dropped (R81, R83). -/
def Obligations.EncodeOfDecode : Prop := ∀ (w : Word32) (i : Instr), decode w = .ok i → encode i = w

/-- "Every 32-bit word is exactly one of": a well-formed command, an `FN` command with its count out of range,
anything else (R88); the decoder sorts the words so. -/
def Obligations.DecodeClasses : Prop :=
  ∀ w : Word32,
    (legalWord w ↔ ∃ i, decode w = .ok i ∧ i.wellFormed = true) ∧
    (countOutOfRange w ↔ ∃ i, decode w = .ok i ∧ i.wellFormed = false) ∧
    (illegalWord w ↔ ∃ e, decode w = .error e)

/-! ## The step and the prologue -/

/-- A step whose next transaction is a command write runs the decoded command on the state with that transaction
taken off, whether the write comes as `Cmd(w)` or as `WriteReg(4, v)` (R36, R38, R87). -/
def Obligations.StepRunsDecodedCommand : Prop :=
  ∀ (s : State) (rest : List Transaction) (i : Instr),
    (∀ w, s.pending = .cmd w :: rest → decode w = .ok i → step s = exec i { s with pending := rest }) ∧
    (∀ v : Word64, s.pending = .writeReg 4 v :: rest → decode (v.setWidth 32) = .ok i →
      step s = exec i { s with pending := rest })

/-- The fault gate (R84): while faulted every word but `SRST`'s changes nothing, and `SRST` runs. -/
def Obligations.FaultGate : Prop :=
  ∀ (s : State) (w : Word32) (rest : List Transaction), s.pending = .cmd w :: rest → s.fcode ≠ 0 →
    (w ≠ 0x00000001 → step s = .next { s with pending := rest }) ∧
    (w = 0x00000001 → step s = exec .srst { s with pending := rest })

/-- A malformed word raises `ILLEGAL`, code 5 (R85, R185). -/
def Obligations.IllegalWordFaults : Prop :=
  ∀ (s : State) (w : Word32) (rest : List Transaction), s.pending = .cmd w :: rest → s.fcode = 0 → illegalWord w →
    step s = .next { s with pending := rest, fcode := 5, fcmd := w }

/-- A bit count out of its command's range raises `OVF_NBITS`, code 2 (R86, R182). -/
def Obligations.CountOutOfRangeFaults : Prop :=
  ∀ (s : State) (w : Word32) (rest : List Transaction),
    s.pending = .cmd w :: rest → s.fcode = 0 → countOutOfRange w →
    step s = .next { s with pending := rest, fcode := 2, fcmd := w }

/-! ## The host interface -/

/-- Register writes (R36), in every state, faulted or not. -/
def Obligations.HostRegisterWrite : Prop :=
  ∀ (s : State) (r : Fin 16) (v : Word64) (rest : List Transaction), s.pending = .writeReg r v :: rest →
    (r = 0 → step s = .next { s with pending := rest, val := v }) ∧
    (r = 1 → ∃ o : Word32, step s = .next { s with pending := rest, ofs := o } ∧ o.toNat = v.toNat % 2 ^ 32) ∧
    (r = 2 → step s = .next { s with pending := rest, lo := v }) ∧
    (r = 3 → step s = .next { s with pending := rest, hi := v }) ∧
    (r = 4 → step s = step { s with pending := .cmd (v.setWidth 32) :: rest }) ∧
    (5 ≤ r.val → step s = .next { s with pending := rest })

/-- Register reads (R37): the value returned, and nothing changed but the model's record of replies.  The layout of
`STATUS` is R27's, `LENB` R23's, `CAP` R29's. -/
def Obligations.HostRegisterRead : Prop :=
  ∀ (s : State) (r : Fin 16) (rest : List Transaction), s.pending = .readReg r :: rest →
    ∃ v : Word64, step s = .next { s with pending := rest, replies := s.replies ++ [.reg v] } ∧
      (r = 0 → v = s.val) ∧ (r = 1 → v.toNat = s.ofs.toNat) ∧ (r = 2 → v = s.lo) ∧ (r = 3 → v = s.hi) ∧
      (r = 5 → v.toNat = s.fcode.toNat + 16 * s.trunc.toNat) ∧ (r = 6 → v.toNat = s.fcmd.toNat) ∧
      (r = 7 → v.toNat = s.cnt.toNat) ∧ (r = 8 → v.toNat = s.len.toNat) ∧
      (r = 9 → v.toNat = (s.len.toNat + 7) / 8) ∧ (r = 10 → v.toNat = s.rlen.toNat) ∧
      (r = 11 → v.toNat = s.pos.toNat) ∧ (r = 12 → v.toNat = 8 * s.capBytes.val) ∧
      (r = 4 ∨ 13 ≤ r.val → v = 0)

/-- The memory port (R39), in every state, faulted or not.  Outside `MEM` the byte returned is some byte: nothing is
said of it (93 U6), and only the model's counter of free bytes moves. -/
def Obligations.MemoryPort : Prop :=
  ∀ (s : State) (a : Nat) (b : Byte) (rest : List Transaction),
    (s.pending = .memRd a :: rest → a < s.capBytes.val →
      step s = .next { s with pending := rest, replies := s.replies ++ [.byte (readByte s.mem a)] }) ∧
    (s.pending = .memRd a :: rest → s.capBytes.val ≤ a →
      ∃ x, step s = .next { s with pending := rest, replies := s.replies ++ [.byte x], freeDraws := s.freeDraws + 1 }) ∧
    (s.pending = .memWr a b :: rest → a < s.capBytes.val →
      ∃ m, step s = .next { s with pending := rest, mem := m } ∧ readByte m a = b ∧
        ∀ x, x ≠ a → readByte m x = readByte s.mem x) ∧
    (s.pending = .memWr a b :: rest → s.capBytes.val ≤ a → step s = .next { s with pending := rest })

/-- With no transaction to come the engine is idle and holds its state (R205). -/
def Obligations.IdleEngineHoldsState : Prop := ∀ s : State, s.pending = [] → step s = .next s

/-! ## Reset, invariants, faults -/

/-- After hardware reset every register is 0, the `fault` line is low, `CAP` reads `CAP_BITS`, and `MEM` is whatever
it comes up as, for every memory size and every content (R40, R210). -/
def Obligations.HardwareReset : Prop :=
  ∀ (cap : CapBytes) (m : List Host.Cell),
    let s := State.powerOn cap m
    s.val = 0 ∧ s.ofs = 0 ∧ s.lo = 0 ∧ s.hi = 0 ∧ s.len = 0 ∧ s.rlen = 0 ∧ s.pos = 0 ∧ s.cnt = 0 ∧ s.fcode = 0 ∧
    s.trunc = false ∧ s.fcmd = 0 ∧ faultLine s = false ∧ (readReg s 12).toNat = 8 * cap.val ∧ s.mem = m

/-- The state after hardware reset meets the invariants of R35, for every legal memory size and every content held in
canonical form; `State.reset`, whose 16 bytes and empty memory are the model's choice (notes/assumptions/1.md and
2.md), is one of them. -/
def Obligations.ResetMeetsInvariant : Prop :=
  State.reset.Inv ∧
  ∀ (cap : CapBytes) (m : List Host.Cell), 1 ≤ cap.val → memoryWf m → memoryBelow cap.val m →
    (State.powerOn cap m).Inv

/-- The invariants of R35, and with them the memory's canonical form, are "preserved by every command and host
action". -/
def Obligations.StepKeepsInvariant : Prop := ∀ s t : State, s.Inv → step s = .next t → t.Inv

/-- In a state that meets the invariants every step completes: no command touches a bit outside `MEM` (R59), none is
refused by the model, every command terminates (R38). -/
def Obligations.StepAlwaysCompletes : Prop := ∀ s : State, s.Inv → ∃ t, step s = .next t

/-- A command reports the first failing test in the order of R187, by the table of R191, and none where no test
fails. -/
def Obligations.FirstFailingTestReported : Prop :=
  ∀ (s : State) (i : Instr), s.fcode = 0 → s.rlen.toNat ≤ s.capBits →
    (∀ f, firstFault i s = some f → exec i s = .next { s with fcode := faultCode f, fcmd := encode i }) ∧
    (firstFault i s = none → ∃ t, exec i s = .next t ∧ t.fcode = 0)

/-- Fault entry (R186): a word that faults writes `FCODE` and `FCMD` and nothing else. -/
def Obligations.FaultRecordsOnly : Prop :=
  ∀ (s t : State) (w : Word32) (rest : List Transaction), s.pending = .cmd w :: rest → s.fcode = 0 →
    step s = .next t → t.fcode ≠ 0 →
    ∃ f : FaultClass, t = { s with pending := rest, fcode := faultCode f, fcmd := w }

/-- "A faulted engine never becomes unfaulted by itself" (R188): among host transactions only the write of the `SRST`
word leaves the faulted state (R189); any other step leaves the fault record as it is.  R189's other way out, hardware
reset, is no transaction of the model but the start of another run: notes/assumptions/11.md. -/
def Obligations.FaultedUntilSoftReset : Prop :=
  ∀ s t : State, s.fcode ≠ 0 → step s = .next t →
    (t.fcode = s.fcode ∧ t.fcmd = s.fcmd) ∨
    ((∃ rest, s.pending = .cmd 1 :: rest ∨ ∃ v : Word64, v.setWidth 32 = 1#32 ∧ s.pending = .writeReg 4 v :: rest) ∧
      t.fcode = 0 ∧ t.fcmd = 0)

/-- The `fault` line follows `STATUS.FCODE` as the host reads it (R27, R190). -/
def Obligations.FaultLineFollowsStatus : Prop :=
  ∀ s : State, faultLine s = true ↔ (readReg s 5).toNat % 16 ≠ 0

/-! ## Who writes what -/

/-- Data registers (R21): no command but `SRST` writes `OFS`, `LO` or `HI`; only the commands listed write `VAL`.
The memory size and the host's side of the model are never written by a command. -/
def Obligations.DataRegisterWriters : Prop :=
  ∀ (s t : State) (i : Instr), exec i s = .next t →
    (i ≠ .srst → t.ofs = s.ofs ∧ t.lo = s.lo ∧ t.hi = s.hi) ∧
    (writesVal i = false → t.val = s.val) ∧
    t.capBytes = s.capBytes ∧ t.pending = s.pending ∧ t.replies = s.replies ∧ t.freeDraws = s.freeDraws

/-- Cursors, `CNT`, `TRUNC` and `MEM`: each is written only by the commands its rule lists (R22, R24, R25, R26, R32,
R60). -/
def Obligations.CursorAndFlagWriters : Prop :=
  ∀ (s t : State) (i : Instr), exec i s = .next t →
    (writesLen i = false → t.len = s.len) ∧ (writesRlen i = false → t.rlen = s.rlen) ∧
    (writesPos i = false → t.pos = s.pos) ∧ (writesCnt i = false → t.cnt = s.cnt) ∧
    (writesTrunc i = false → t.trunc = s.trunc) ∧ (writesMem i = false → t.mem = s.mem)

/-- `LEN` "never decreases except by `SRST`, `WNEW`, `WIMP` and reset" (R22). -/
def Obligations.LengthGrowsMonotonically : Prop :=
  ∀ (s t : State) (i : Instr), s.len.toNat ≤ s.capBits → i ≠ .srst → i ≠ .wnew → i ≠ .wimp → exec i s = .next t →
    s.len.toNat ≤ t.len.toNat

/-- The frame rule for writes (R60), for every command that answers a next state, faulting or not. -/
def Obligations.MemoryFrame : Prop :=
  ∀ (s t : State) (i : Instr), s.len.toNat ≤ s.capBits → exec i s = .next t →
    (appends i = true →
      ∀ k, ¬(s.len.toNat ≤ k ∧ k < t.len.toNat) → streamBit t.mem k = streamBit s.mem k) ∧
    (∀ n, i = .wruat n →
      ∀ k, ¬(s.ofs.toNat ≤ k ∧ k < s.ofs.toNat + n.toNat) → streamBit t.mem k = streamBit s.mem k) ∧
    (i = .wnew → s.fcode = 0 → ∀ k < s.capBits, streamBit t.mem k = false) ∧
    (writesMem i = false → ∀ a, readByte t.mem a = readByte s.mem a)

/-- A command reads no data register but those R21 lists: changing another changes nothing else.  A read overwrites
`VAL` whole and never reads it (R21, R223): its result is the same whatever `VAL` held. -/
def Obligations.UnlistedRegistersNotRead : Prop :=
  ∀ (s t : State) (i : Instr) (v l h : Word64) (o : Word32), i ≠ .srst → exec i s = .next t →
    (readsOfs i = false → exec i { s with ofs := o } = .next { t with ofs := o }) ∧
    (readsBounds i = false → exec i { s with lo := l, hi := h } = .next { t with lo := l, hi := h }) ∧
    (writesVal i = true → s.fcode = 0 → t.fcode = 0 → exec i { s with val := v } = .next t)

/-- "Bits of `VAL` above those listed are ignored by the command, whatever they hold" (R21): for every command that
does not write `VAL`, two states that agree but for those bits behave alike. -/
def Obligations.UpperBitsOfValIgnored : Prop :=
  ∀ (s t : State) (i : Instr) (v : Word64), writesVal i = false →
    v.toNat % 2 ^ valBitsRead i = s.val.toNat % 2 ^ valBitsRead i → exec i s = .next t →
    exec i { s with val := v } = .next { t with val := v }

/-! ## Bit fields -/

/-- `PutBits` (R54): its own bits and no others, read back as `v mod 2^n`, disjoint fields as before. -/
def Obligations.PutBitsThenGetBits : Prop :=
  ∀ (capBits : Nat) (m : List Host.Cell) (off n v : Nat), n ≤ 64 → off + n ≤ capBits →
    ∃ m', putBits capBits m off n v = some m' ∧ bitsWritten m m' off n v ∧ otherBytesKept m m' off n ∧
      getBits capBits m' off n = some (v % 2 ^ n) ∧
      ∀ off' n', off' + n' ≤ capBits → (off' + n' ≤ off ∨ off + n ≤ off') →
        getBits capBits m' off' n' = getBits capBits m off' n'

/-- The byte-by-byte construction of R55 gives exactly the bit-stream primitives, at every offset and width; a write
of more than 32 bits is two writes, low half first. -/
def Obligations.ByteFormEqualsBitForm : Prop :=
  ∀ (m : List Host.Cell) (off n v : Nat), n ≤ 64 →
    (∀ a, readByte (putFieldByBytes m off n v) a = readByte (putField m off n v) a) ∧
    fieldByBytes m off n = fieldAt m off n ∧
    (32 < n → ∀ a, readByte (putField (putField m off 32 (v % 2 ^ 32)) (off + 32) (n - 32) (v >>> 32)) a =
      readByte (putField m off n v) a)

/-- On byte boundaries the primitives are `MemRead` and `MemWrite` (R56). -/
def Obligations.AlignedFieldsAreMemoryAccesses : Prop :=
  ∀ (m : List Host.Cell) (a n v : Nat),
    fieldAt m (8 * a) (8 * n) = memRead m a n ∧
    ∀ x, readByte (putField m (8 * a) (8 * n) v) x = readByte (memWrite m a n (v % 2 ^ (8 * n))) x

/-- Memory is one bit stream (R52, R56): a field is its low part and above it its high part. -/
def Obligations.FieldSplitsIntoParts : Prop :=
  ∀ (capBits : Nat) (m : List Host.Cell) (off n k : Nat), off + (n + k) ≤ capBits →
    ∃ x y, getBits capBits m off n = some x ∧ getBits capBits m (off + n) k = some y ∧ x < 2 ^ n ∧ y < 2 ^ k ∧
      getBits capBits m off (n + k) = some (x + 2 ^ n * y)

/-! ## Buffer, cursor and padding commands -/

/-- `SRST` (R100), in every state. -/
def Obligations.SoftResetResult : Prop :=
  decode 0x00000001 = .ok .srst ∧
  ∀ s : State, exec .srst s = .next { s with
    val := 0, ofs := 0, lo := 0, hi := 0, len := 0, rlen := 0, pos := 0, cnt := 0,
    fcode := 0, trunc := false, fcmd := 0 }

/-- `WNEW` (R101). -/
def Obligations.WnewResult : Prop :=
  ∀ s : State, s.fcode = 0 →
    decode 0x00000002 = .ok .wnew ∧
    ∃ m, exec .wnew s = .next { s with mem := m, len := 0 } ∧
      (∀ a < s.capBytes.val, readByte m a = 0) ∧ ∀ a, s.capBytes.val ≤ a → readByte m a = readByte s.mem a

/-- `WIMP` (R102). -/
def Obligations.WimpResult : Prop :=
  ∀ s : State, s.fcode = 0 →
    decode 0x00000003 = .ok .wimp ∧
    (8 * s.ofs.toNat ≤ s.capBits →
      ∃ l : Word32, exec .wimp s = .next { s with len := l } ∧ l.toNat = 8 * s.ofs.toNat) ∧
    (s.capBits < 8 * s.ofs.toNat → exec .wimp s = .next { s with fcode := 3, fcmd := 0x00000003 })

/-- `ROPEN` and `ROPENB` (R103, R104), for a legal `LEN` (R22). -/
def Obligations.OpenReaderResult : Prop :=
  ∀ s : State, s.fcode = 0 → s.len.toNat ≤ s.capBits →
    decode 0x00000004 = .ok .ropen ∧ decode 0x00000005 = .ok .ropenb ∧
    exec .ropen s = .next { s with rlen := s.len, pos := 0 } ∧
    ∃ r : Word32, exec .ropenb s = .next { s with rlen := r, pos := 0 } ∧ r.toNat = 8 * ((s.len.toNat + 7) / 8) ∧
      r.toNat ≤ s.capBits

/-- `RSEEK` (R105). -/
def Obligations.RseekResult : Prop :=
  ∀ s : State, s.fcode = 0 →
    decode 0x00000006 = .ok .rseek ∧
    (s.ofs.toNat ≤ s.rlen.toNat → exec .rseek s = .next { s with pos := s.ofs }) ∧
    (s.rlen.toNat < s.ofs.toNat → exec .rseek s = .next { s with fcode := 1, fcmd := 0x00000006 })

/-- `PADB` (R106), for a legal `LEN` (R22). -/
def Obligations.PadbResult : Prop :=
  ∀ s : State, s.fcode = 0 → s.len.toNat ≤ s.capBits →
    decode 0x00000008 = .ok .padb ∧
    ∃ l c : Word32, exec .padb s = .next { s with len := l, cnt := c } ∧
      c.toNat = (8 - s.len.toNat % 8) % 8 ∧ l.toNat = s.len.toNat + c.toNat ∧
      l.toNat = 8 * ((s.len.toNat + 7) / 8) ∧ (l.toNat + 7) / 8 = (s.len.toNat + 7) / 8

/-- `PAD n` (R107); `w` is its word. -/
def Obligations.PadResult : Prop :=
  ∀ (s : State) (n : BitVec 7) (w : Word32), s.fcode = 0 → w.toNat = 0x09 + 256 * n.toNat →
    decode w = .ok (.pad n) ∧
    (n.toNat = 0 ∨ 64 < n.toNat → exec (.pad n) s = .next { s with fcode := 2, fcmd := w }) ∧
    (1 ≤ n.toNat → n.toNat ≤ 64 → s.len.toNat + n.toNat ≤ s.capBits →
      ∃ l c : Word32, exec (.pad n) s = .next { s with len := l, cnt := c } ∧
        l.toNat = s.len.toNat + n.toNat ∧ c.toNat = n.toNat) ∧
    (1 ≤ n.toNat → n.toNat ≤ 64 → s.capBits < s.len.toNat + n.toNat →
      exec (.pad n) s = .next { s with fcode := 3, fcmd := w })

/-- `RPADB` (R108). -/
def Obligations.RpadbResult : Prop :=
  ∀ s : State, s.fcode = 0 →
    decode 0x0000000A = .ok .rpadb ∧
    (s.pos.toNat + (8 - s.pos.toNat % 8) % 8 ≤ s.rlen.toNat →
      ∃ p c : Word32, exec .rpadb s = .next { s with pos := p, cnt := c } ∧
        c.toNat = (8 - s.pos.toNat % 8) % 8 ∧ p.toNat = s.pos.toNat + c.toNat ∧ p.toNat % 8 = 0) ∧
    (s.rlen.toNat < s.pos.toNat + (8 - s.pos.toNat % 8) % 8 →
      exec .rpadb s = .next { s with fcode := 1, fcmd := 0x0000000A })

/-- `RSKIP n` (R109); `w` is its word. -/
def Obligations.RskipResult : Prop :=
  ∀ (s : State) (n : BitVec 7) (w : Word32), s.fcode = 0 → w.toNat = 0x0B + 256 * n.toNat →
    decode w = .ok (.rskip n) ∧
    (n.toNat = 0 ∨ 64 < n.toNat → exec (.rskip n) s = .next { s with fcode := 2, fcmd := w }) ∧
    (1 ≤ n.toNat → n.toNat ≤ 64 → s.pos.toNat + n.toNat ≤ s.rlen.toNat →
      ∃ p c : Word32, exec (.rskip n) s = .next { s with pos := p, cnt := c } ∧
        p.toNat = s.pos.toNat + n.toNat ∧ c.toNat = n.toNat) ∧
    (1 ≤ n.toNat → n.toNat ≤ 64 → s.rlen.toNat < s.pos.toNat + n.toNat →
      exec (.rskip n) s = .next { s with fcode := 1, fcmd := w })

/-- The laws of the family (R110), in a state that is not faulted and whose `LEN` is legal. -/
def Obligations.PaddingLaws : Prop :=
  ∀ s : State, s.fcode = 0 → s.len.toNat ≤ s.capBits →
    (∃ t u, exec .padb s = .next t ∧ exec .padb t = .next u ∧ t.len.toNat % 8 = 0 ∧ u = { t with cnt := 0 } ∧
      readReg t 9 = readReg s 9) ∧
    (∃ t, exec .ropen s = .next t ∧ t.rlen.toNat - t.pos.toNat = s.len.toNat) ∧
    (∃ t, exec .ropenb s = .next t ∧ t.rlen.toNat - t.pos.toNat = 8 * (readReg s 9).toNat) ∧
    ∀ i t, exec i s = .next t →
      (i = .srst ∨ i = .wimp ∨ i = .ropen ∨ i = .ropenb ∨ i = .rseek ∨ i = .padb ∨ (∃ n, i = .pad n) ∨ i = .rpadb ∨
        ∃ n, i = .rskip n) → ∀ k, streamBit t.mem k = streamBit s.mem k

/-! ## Fixed-width fields -/

/-- `WRU n` (R121), `w` its word: the bits stored, the bytes kept, the cursor and the count; its faults. -/
def Obligations.WruResult : Prop :=
  ∀ (s : State) (n : BitVec 7) (w : Word32), s.fcode = 0 → w.toNat = 0x10 + 256 * n.toNat →
    decode w = .ok (.wru n) ∧
    (n.toNat = 0 ∨ 64 < n.toNat → exec (.wru n) s = .next { s with fcode := 2, fcmd := w }) ∧
    (1 ≤ n.toNat → n.toNat ≤ 64 → s.len.toNat + n.toNat ≤ s.capBits →
      ∃ m, ∃ l c : Word32, exec (.wru n) s = .next { s with mem := m, len := l, cnt := c } ∧
        l.toNat = s.len.toNat + n.toNat ∧ c.toNat = n.toNat ∧
        bitsWritten s.mem m s.len.toNat n.toNat s.val.toNat ∧ otherBytesKept s.mem m s.len.toNat n.toNat) ∧
    (1 ≤ n.toNat → n.toNat ≤ 64 → s.capBits < s.len.toNat + n.toNat →
      exec (.wru n) s = .next { s with fcode := 3, fcmd := w })

/-- `WRUAT n` (R122); `w` is its word. -/
def Obligations.WruatResult : Prop :=
  ∀ (s : State) (n : BitVec 7) (w : Word32), s.fcode = 0 → w.toNat = 0x11 + 256 * n.toNat →
    decode w = .ok (.wruat n) ∧
    (n.toNat = 0 ∨ 64 < n.toNat → exec (.wruat n) s = .next { s with fcode := 2, fcmd := w }) ∧
    (1 ≤ n.toNat → n.toNat ≤ 64 → s.ofs.toNat + n.toNat ≤ s.capBits →
      ∃ m, ∃ l c : Word32, exec (.wruat n) s = .next { s with mem := m, len := l, cnt := c } ∧
        l.toNat = max s.len.toNat (s.ofs.toNat + n.toNat) ∧ c.toNat = n.toNat ∧
        bitsWritten s.mem m s.ofs.toNat n.toNat s.val.toNat ∧ otherBytesKept s.mem m s.ofs.toNat n.toNat) ∧
    (1 ≤ n.toNat → n.toNat ≤ 64 → s.capBits < s.ofs.toNat + n.toNat →
      exec (.wruat n) s = .next { s with fcode := 3, fcmd := w })

/-- `RDU n` and `PKU n` (R123, R124), `w` and `w'` their words: bit `i` of `VAL` is stream bit `POS + i`, the upper
bits 0. -/
def Obligations.UnsignedReadResult : Prop :=
  ∀ (s : State) (n : BitVec 7) (w w' : Word32), s.fcode = 0 →
    w.toNat = 0x12 + 256 * n.toNat → w'.toNat = 0x13 + 256 * n.toNat →
    decode w = .ok (.rdu n) ∧ decode w' = .ok (.pku n) ∧
    (n.toNat = 0 ∨ 64 < n.toNat →
      exec (.rdu n) s = .next { s with fcode := 2, fcmd := w } ∧
      exec (.pku n) s = .next { s with fcode := 2, fcmd := w' }) ∧
    (1 ≤ n.toNat → n.toNat ≤ 64 → s.pos.toNat + n.toNat ≤ s.rlen.toNat → s.rlen.toNat ≤ s.capBits →
      ∃ v : Word64, ∃ p c : Word32,
        exec (.rdu n) s = .next { s with val := v, pos := p, cnt := c } ∧
        exec (.pku n) s = .next { s with val := v, cnt := c } ∧
        p.toNat = s.pos.toNat + n.toNat ∧ c.toNat = n.toNat ∧
        ∀ i < 64, v.getLsbD i = (decide (i < n.toNat) && streamBit s.mem (s.pos.toNat + i))) ∧
    (1 ≤ n.toNat → n.toNat ≤ 64 → s.rlen.toNat < s.pos.toNat + n.toNat →
      exec (.rdu n) s = .next { s with fcode := 1, fcmd := w } ∧
      exec (.pku n) s = .next { s with fcode := 1, fcmd := w' })

/-- `WRS n` (R125), `w` its word: the field stored is `SEnc(N, VAL[31:0])` (R120). -/
def Obligations.WrsResult : Prop :=
  ∀ (s : State) (n : BitVec 7) (w : Word32), s.fcode = 0 → w.toNat = 0x14 + 256 * n.toNat →
    decode w = .ok (.wrs n) ∧
    (n.toNat = 0 ∨ 32 < n.toNat → exec (.wrs n) s = .next { s with fcode := 2, fcmd := w }) ∧
    (1 ≤ n.toNat → n.toNat ≤ 32 → s.len.toNat + n.toNat ≤ s.capBits →
      ∃ m, ∃ l c : Word32, exec (.wrs n) s = .next { s with mem := m, len := l, cnt := c } ∧
        l.toNat = s.len.toNat + n.toNat ∧ c.toNat = n.toNat ∧
        bitsWritten s.mem m s.len.toNat n.toNat (sEnc n.toNat (s.val.setWidth 32)) ∧ otherBytesKept s.mem m s.len.toNat n.toNat) ∧
    (1 ≤ n.toNat → n.toNat ≤ 32 → s.capBits < s.len.toNat + n.toNat →
      exec (.wrs n) s = .next { s with fcode := 3, fcmd := w })

/-- `RDS n` and `PKS n` (R126, R127), `w` and `w'` their words: `VAL` holds the signed reading of the field (R120),
sign-extended. -/
def Obligations.SignedReadResult : Prop :=
  ∀ (s : State) (n : BitVec 7) (w w' : Word32), s.fcode = 0 →
    w.toNat = 0x16 + 256 * n.toNat → w'.toNat = 0x17 + 256 * n.toNat →
    decode w = .ok (.rds n) ∧ decode w' = .ok (.pks n) ∧
    (n.toNat = 0 ∨ 32 < n.toNat →
      exec (.rds n) s = .next { s with fcode := 2, fcmd := w } ∧
      exec (.pks n) s = .next { s with fcode := 2, fcmd := w' }) ∧
    (1 ≤ n.toNat → n.toNat ≤ 32 → s.pos.toNat + n.toNat ≤ s.rlen.toNat → s.rlen.toNat ≤ s.capBits →
      ∃ f, getBits s.capBits s.mem s.pos.toNat n.toNat = some f ∧
        ∃ v : Word64, ∃ p c : Word32,
          exec (.rds n) s = .next { s with val := v, pos := p, cnt := c } ∧
          exec (.pks n) s = .next { s with val := v, cnt := c } ∧
          p.toNat = s.pos.toNat + n.toNat ∧ c.toNat = n.toNat ∧ v.toInt = sDec n.toNat f) ∧
    (1 ≤ n.toNat → n.toNat ≤ 32 → s.rlen.toNat < s.pos.toNat + n.toNat →
      exec (.rds n) s = .next { s with fcode := 1, fcmd := w } ∧
      exec (.pks n) s = .next { s with fcode := 1, fcmd := w' })

/-- The sign-indicator coding in numbers (R120): below 32 bits, in the representable range, a negative `x` is
`(-x - 1)` with the sign bit, any other `x` itself; at 32 bits the raw pattern; and `SDec` undoes it. -/
def Obligations.SignIndicatorCoding : Prop :=
  ∀ (n : Nat) (v : Word32), 1 ≤ n → n ≤ 32 →
    -(2 ^ (n - 1) : Int) ≤ v.toInt → v.toInt ≤ (2 ^ (n - 1) : Int) - 1 →
    (n = 32 → sEnc n v = v.toNat) ∧
    (n < 32 → (sEnc n v : Int) = if v.toInt < 0 then -v.toInt - 1 + 2 ^ (n - 1) else v.toInt) ∧
    sDec n (sEnc n v) = v.toInt

/-- Outside the representable range bits are dropped silently (R120, R125, R226): the field still fits `n` bits and
its top bit is still the sign. -/
def Obligations.SignIndicatorAlwaysFits : Prop :=
  ∀ (n : Nat) (v : Word32), 1 ≤ n → n < 32 →
    sEnc n v < 2 ^ n ∧ (sEnc n v).testBit (n - 1) = decide (v.toInt < 0) ∧
    ∀ i < n - 1, (sEnc n v).testBit i = if v.toInt < 0 then !v.getLsbD i else v.getLsbD i

/-- Fixed-width round trips (R128): what `WRU N` wrote, `RDU N` at the same offset returns, `VAL mod 2^N`; what
`WRS N` wrote of a representable value, `RDS N` returns; from any state `r` that holds the memory written. -/
def Obligations.FixedWidthRoundTrip : Prop :=
  ∀ (s t r : State) (n : BitVec 7), s.fcode = 0 → s.len.toNat + n.toNat ≤ s.capBits →
    r.mem = t.mem → r.capBytes = t.capBytes → r.fcode = 0 → r.pos = s.len → s.len.toNat + n.toNat ≤ r.rlen.toNat →
    (1 ≤ n.toNat → n.toNat ≤ 64 → exec (.wru n) s = .next t →
      ∃ u, exec (.rdu n) r = .next u ∧ u.val.toNat = s.val.toNat % 2 ^ n.toNat) ∧
    (1 ≤ n.toNat → n.toNat ≤ 32 → exec (.wrs n) s = .next t →
      -(2 ^ (n.toNat - 1) : Int) ≤ (s.val.setWidth 32).toInt →
      (s.val.setWidth 32).toInt ≤ (2 ^ (n.toNat - 1) : Int) - 1 →
      ∃ u, exec (.rds n) r = .next u ∧ u.val.toInt = (s.val.setWidth 32).toInt)

/-! ## Varints -/

/-- The varint writes (R140, R142 to R146): the word of each, its operand `v`, its byte count `k`, each byte stored,
the bytes kept, the cursor and the count; the capacity fault with no byte written. -/
def Obligations.VarintWriteResult : Prop :=
  ∀ (s : State) (i : Instr) (w : Word32) (v k : Nat), s.fcode = 0 → isVarCount v k →
    (i, w, v) ∈ [(Instr.wvu32, 0x00000020, s.val.toNat % 2 ^ 32), (Instr.wvu64, 0x00000021, s.val.toNat),
      (Instr.wvs32, 0x00000022, zigzagOf (s.val.setWidth 32).toInt), (Instr.wvs64, 0x00000023, zigzagOf s.val.toInt)] →
    decode w = .ok i ∧
    (s.len.toNat + 8 * k ≤ s.capBits →
      ∃ m, ∃ l c : Word32, exec i s = .next { s with mem := m, len := l, cnt := c } ∧
        l.toNat = s.len.toNat + 8 * k ∧ c.toNat = 8 * k ∧
        (∀ j < k, getBits s.capBits m (s.len.toNat + 8 * j) 8 =
          some (v / 2 ^ (7 * j) % 128 + if j + 1 < k then 128 else 0)) ∧
        (∀ b, ¬(s.len.toNat ≤ b ∧ b < s.len.toNat + 8 * k) → streamBit m b = streamBit s.mem b) ∧
        otherBytesKept s.mem m s.len.toNat (8 * k)) ∧
    (s.capBits < s.len.toNat + 8 * k → exec i s = .next { s with fcode := 3, fcmd := w })

/-- The byte count of a varint (R142): the model's `varCount` is the one least count `k >= 1` whose `7k` bits hold the
value, at most 5 below `2^32` and at most 10 below `2^64`; a varint write that completes leaves 8 times such a count in
`CNT`, 1 to 5 bytes for the 32-bit commands and 1 to 10 for the 64-bit ones. -/
def Obligations.VarintByteCount : Prop :=
  (∀ v : Nat, isVarCount v (varCount v) ∧ (∀ k, isVarCount v k → k = varCount v) ∧
    (v < 2 ^ 32 → varCount v ≤ 5) ∧ (v < 2 ^ 64 → varCount v ≤ 10)) ∧
  ∀ (s t : State) (i : Instr) (most : Nat), s.fcode = 0 →
    (i, most) ∈ [(Instr.wvu32, 5), (Instr.wvs32, 5), (Instr.wvu64, 10), (Instr.wvs64, 10)] →
    exec i s = .next t → t.fcode = 0 → ∃ k, t.cnt.toNat = 8 * k ∧ 1 ≤ k ∧ k ≤ most

/-- The zigzag mapping is a bijection and is the one on signed readings that R141 describes. -/
def Obligations.ZigzagBijection : Prop :=
  (∀ v : BitVec 32, unzigzag (zigzag v) = v ∧ zigzag (unzigzag v) = v ∧ (zigzag v).toNat = zigzagOf v.toInt ∧
    (unzigzag v).toInt = unzigzagOf v.toNat) ∧
  (∀ v : BitVec 64, unzigzag (zigzag v) = v ∧ zigzag (unzigzag v) = v ∧ (zigzag v).toNat = zigzagOf v.toInt ∧
    (unzigzag v).toInt = unzigzagOf v.toNat)

/-- The varint reads and peeks on a varint of `k + 1` bytes that stands whole below `RLEN`, over-long ones included
(R147 to R157): the value, cut to the width; the bits consumed; `TRUNC = 0`. -/
def Obligations.VarintReadTerminated : Prop :=
  ∀ (s : State) (k : Nat), s.fcode = 0 → s.rlen.toNat ≤ s.capBits → varTerminated s k →
    ∀ (read peek : Instr) (v : Int),
      (read, peek, v) ∈
        [(Instr.rvu32, Instr.pvu32, ((varGroups s.mem s.pos.toNat (k + 1) % 2 ^ 32 : Nat) : Int)),
         (Instr.rvu64, Instr.pvu64, ((varGroups s.mem s.pos.toNat (k + 1) % 2 ^ 64 : Nat) : Int)),
         (Instr.rvs32, Instr.pvs32, unzigzagOf (varGroups s.mem s.pos.toNat (k + 1) % 2 ^ 32)),
         (Instr.rvs64, Instr.pvs64, unzigzagOf (varGroups s.mem s.pos.toNat (k + 1) % 2 ^ 64))] →
      ∃ p c : Word32, p.toNat = s.pos.toNat + 8 * (k + 1) ∧ c.toNat = 8 * (k + 1) ∧
        exec read s = .next { s with val := BitVec.ofInt 64 v, cnt := c, trunc := false, pos := p } ∧
        exec peek s = .next { s with val := BitVec.ofInt 64 v, cnt := c, trunc := false }

/-- The varint reads and peeks when the whole bytes run out first (R147 to R156): the partial accumulation, all whole
bytes consumed, `TRUNC = 1`, no fault; with fewer than 8 bits left the value is 0 and nothing is consumed. -/
def Obligations.VarintReadTruncated : Prop :=
  ∀ s : State, s.fcode = 0 → s.pos.toNat ≤ s.rlen.toNat → s.rlen.toNat ≤ s.capBits → varTruncated s →
    ∀ (read peek : Instr) (v : Int),
      (read, peek, v) ∈
        [(Instr.rvu32, Instr.pvu32, ((varGroups s.mem s.pos.toNat (wholeBytesLeft s) % 2 ^ 32 : Nat) : Int)),
         (Instr.rvu64, Instr.pvu64, ((varGroups s.mem s.pos.toNat (wholeBytesLeft s) % 2 ^ 64 : Nat) : Int)),
         (Instr.rvs32, Instr.pvs32, unzigzagOf (varGroups s.mem s.pos.toNat (wholeBytesLeft s) % 2 ^ 32)),
         (Instr.rvs64, Instr.pvs64, unzigzagOf (varGroups s.mem s.pos.toNat (wholeBytesLeft s) % 2 ^ 64))] →
      ∃ p c : Word32, p.toNat = s.pos.toNat + 8 * wholeBytesLeft s ∧ c.toNat = 8 * wholeBytesLeft s ∧
        exec read s = .next { s with val := BitVec.ofInt 64 v, cnt := c, trunc := true, pos := p } ∧
        exec peek s = .next { s with val := BitVec.ofInt 64 v, cnt := c, trunc := true }

/-- The eight varint reads and peeks "raise no fault in any state" (R147, R181): each completes wherever a reader's
bits lie in memory, and the read cursor stays within `RLEN`. -/
def Obligations.VarintReadsNeverFault : Prop :=
  ∀ (s : State) (i : Instr), s.fcode = 0 → s.pos.toNat ≤ s.rlen.toNat → s.rlen.toNat ≤ s.capBits →
    i ∈ [Instr.rvu32, .rvu64, .rvs32, .rvs64, .pvu32, .pvu64, .pvs32, .pvs64] →
    ∃ t, exec i s = .next t ∧ t.fcode = 0 ∧ s.pos.toNat ≤ t.pos.toNat ∧ t.pos.toNat ≤ s.rlen.toNat ∧
      t.cnt.toNat % 8 = 0 ∧ (t.trunc = true → s.rlen.toNat - (s.pos.toNat + t.cnt.toNat) < 8)

/-- Varint round trip (R158): what a varint write laid, the read of the same kind at the same offset returns,
consuming exactly the bits written and leaving `TRUNC = 0`. -/
def Obligations.VarintRoundTrip : Prop :=
  ∀ (s t r : State) (write read : Instr) (v : Word64), s.fcode = 0 →
    (write, read, v) ∈
      [(Instr.wvu32, Instr.rvu32, (s.val.setWidth 32).setWidth 64), (Instr.wvu64, Instr.rvu64, s.val),
       (Instr.wvs32, Instr.rvs32, (s.val.setWidth 32).signExtend 64), (Instr.wvs64, Instr.rvs64, s.val)] →
    s.len.toNat ≤ s.capBits → exec write s = .next t → t.fcode = 0 →
    r.mem = t.mem → r.capBytes = t.capBytes → r.fcode = 0 → r.pos = s.len → t.len.toNat ≤ r.rlen.toNat →
    ∃ u, exec read r = .next u ∧ u.val = v ∧ u.cnt = t.cnt ∧ u.pos = t.len ∧ u.trunc = false

/-! ## Ranged integers -/

/-- `WRR` (R170, R171): in the range, `VAL - LO` in the least number of bits that holds the span, 0 bits when
`lo = hi`; the domain fault before the capacity fault. -/
def Obligations.WrrResult : Prop :=
  ∀ (s : State) (nb : Nat), s.fcode = 0 →
    decode 0x00000030 = .ok .wrr ∧
    (s.lo.toInt ≤ s.val.toInt → s.val.toInt ≤ s.hi.toInt → isBitlen (s.hi.toInt - s.lo.toInt).toNat nb →
      (s.len.toNat + nb ≤ s.capBits →
        ∃ m, ∃ l c : Word32, exec .wrr s = .next { s with mem := m, len := l, cnt := c } ∧
          l.toNat = s.len.toNat + nb ∧ c.toNat = nb ∧
          bitsWritten s.mem m s.len.toNat nb (s.val.toInt - s.lo.toInt).toNat ∧
          otherBytesKept s.mem m s.len.toNat nb) ∧
      (s.capBits < s.len.toNat + nb → exec .wrr s = .next { s with fcode := 3, fcmd := 0x00000030 })) ∧
    (s.val.toInt < s.lo.toInt ∨ s.hi.toInt < s.val.toInt →
      exec .wrr s = .next { s with fcode := 4, fcmd := 0x00000030 })

/-- `RDR` and `PKR` (R172, R173): `(LO + field) mod 2^64`, not tested against `HI`; the domain fault before the
read-overflow fault. -/
def Obligations.RangedReadResult : Prop :=
  ∀ (s : State) (nb : Nat), s.fcode = 0 →
    decode 0x00000031 = .ok .rdr ∧ decode 0x00000032 = .ok .pkr ∧
    (s.lo.toInt ≤ s.hi.toInt → isBitlen (s.hi.toInt - s.lo.toInt).toNat nb →
      (s.pos.toNat + nb ≤ s.rlen.toNat → s.rlen.toNat ≤ s.capBits →
        ∃ d, getBits s.capBits s.mem s.pos.toNat nb = some d ∧
          ∃ v : Word64, ∃ p c : Word32,
            exec .rdr s = .next { s with val := v, pos := p, cnt := c } ∧
            exec .pkr s = .next { s with val := v, cnt := c } ∧
            v.toNat = (s.lo.toNat + d) % 2 ^ 64 ∧ p.toNat = s.pos.toNat + nb ∧ c.toNat = nb) ∧
      (s.rlen.toNat < s.pos.toNat + nb →
        exec .rdr s = .next { s with fcode := 1, fcmd := 0x00000031 } ∧
        exec .pkr s = .next { s with fcode := 1, fcmd := 0x00000032 })) ∧
    (s.hi.toInt < s.lo.toInt →
      exec .rdr s = .next { s with fcode := 4, fcmd := 0x00000031 } ∧
      exec .pkr s = .next { s with fcode := 4, fcmd := 0x00000032 })

/-- Ranged round trip (R174): for all signed 64-bit `lo <= v <= hi`, with the same `LO` and `HI`, `RDR` returns `v`
and both commands report the same `CNT`. -/
def Obligations.RangedRoundTrip : Prop :=
  ∀ s t r : State, s.fcode = 0 → s.lo.toInt ≤ s.val.toInt → s.val.toInt ≤ s.hi.toInt → s.len.toNat ≤ s.capBits →
    exec .wrr s = .next t → t.fcode = 0 →
    r.mem = t.mem → r.capBytes = t.capBytes → r.fcode = 0 → r.lo = s.lo → r.hi = s.hi → r.pos = s.len →
    t.len.toNat ≤ r.rlen.toNat →
    ∃ u, exec .rdr r = .next u ∧ u.val = s.val ∧ u.cnt = t.cnt ∧ isBitlen (s.hi.toInt - s.lo.toInt).toNat u.cnt.toNat

/-- "`WRR` with bounds `[0, 2^n - 1]` writes the same bits as `WRU n` of the value" (R174): the two commands reach the
same state. -/
def Obligations.RangedWriteIsUnsignedWrite : Prop :=
  ∀ (s : State) (n : BitVec 7), s.fcode = 0 → 1 ≤ n.toNat → n.toNat ≤ 63 → s.lo = 0 →
    s.hi.toNat = 2 ^ n.toNat - 1 → s.val.toNat ≤ s.hi.toNat → s.len.toNat + n.toNat ≤ s.capBits →
    exec .wrr s = exec (.wru n) s

/-! ## Peeks -/

/-- Peek idempotence (R124, R153): a peek again changes nothing more, and the consuming read after it does what it
would have done before it. -/
def Obligations.PeekIdempotence : Prop :=
  ∀ (s t : State) (peek read : Instr), consumingForm peek = some read → exec peek s = .next t →
    t.pos = s.pos ∧ exec peek t = .next t ∧ (t.fcode = 0 → exec read t = exec read s)
end

