-- ==== Sys2Proof/Laws/Memory.lean ====
section
/-! SUPPORT. What the memory operations do: reading after writing, the canonical form and the extent kept by every
one of them, the stream bits a field write changes, the bits a field read returns. -/

namespace Sys2Proof.Machine

/-! ## One byte -/

theorem readByte_eraseCell (m : List Host.Cell) (a x : Nat) :
    readByte (eraseCell m a) x = if x = a then unlistedByte else readByte m x := by
  induction m with
  | nil => simp [eraseCell, readByte]
  | cons c rest ih =>
    obtain ⟨y, b⟩ := c
    simp only [eraseCell] at ih ⊢
    by_cases hy : y = a
    · subst hy
      simp only [List.filter_cons, ne_eq, not_true_eq_false, decide_false, Bool.false_eq_true, if_false, ih, readByte]
      split <;> rename_i h
      · rfl
      · simp [Ne.symm h]
    · simp only [List.filter_cons, ne_eq, hy, not_false_eq_true, decide_true, if_true, readByte, ih]
      by_cases hx : y = x
      · subst hx; simp [hy]
      · simp [hx]

theorem readByte_insertCell (c : Host.Cell) (m : List Host.Cell) (h : ∀ d ∈ m, d.1 ≠ c.1) (x : Nat) :
    readByte (insertCell c m) x = if x = c.1 then c.2 else readByte m x := by
  induction m with
  | nil => simp [insertCell, readByte, eq_comm]
  | cons d rest ih =>
    obtain ⟨y, b⟩ := d
    have hy : y ≠ c.1 := h (y, b) (by simp)
    have ih' := ih fun d hd => h d (List.mem_cons_of_mem _ hd)
    simp only [insertCell]
    split
    · simp [readByte, eq_comm]
    · simp only [readByte, ih']
      by_cases hx : y = x
      · subst hx; simp [hy]
      · simp [hx]

theorem eraseCell_ne (m : List Host.Cell) (a : Nat) : ∀ d ∈ eraseCell m a, d.1 ≠ a := by
  intro d hd
  simpa using (List.mem_filter.mp hd).2

/-- A read after a write: the byte written at its address, every other byte as before. -/
@[simp] theorem readByte_writeByte (m : List Host.Cell) (a x : Nat) (b : Byte) :
    readByte (writeByte m a b) x = if x = a then b else readByte m x := by
  unfold writeByte
  split
  · rename_i h; rw [readByte_eraseCell, h]
  · rw [readByte_insertCell _ _ (eraseCell_ne m a), readByte_eraseCell]
    split <;> rfl

theorem mem_insertCell {c d : Host.Cell} {m : List Host.Cell} : d ∈ insertCell c m ↔ d = c ∨ d ∈ m := by
  induction m with
  | nil => simp [insertCell]
  | cons e rest ih =>
    simp only [insertCell]
    split
    · simp
    · simp only [List.mem_cons, ih]; tauto

theorem insertCell_sorted {c : Host.Cell} {m : List Host.Cell} (hm : m.Pairwise fun c d => c.1 < d.1)
    (h : ∀ d ∈ m, d.1 ≠ c.1) : (insertCell c m).Pairwise fun c d => c.1 < d.1 := by
  induction m with
  | nil => simp [insertCell]
  | cons e rest ih =>
    rw [List.pairwise_cons] at hm
    simp only [insertCell]
    split
    · rename_i hlt
      refine List.pairwise_cons.mpr ⟨?_, List.pairwise_cons.mpr hm⟩
      intro d hd
      rcases List.mem_cons.mp hd with rfl | hd
      · exact hlt
      · exact hlt.trans (hm.1 d hd)
    · rename_i hge
      refine List.pairwise_cons.mpr ⟨?_, ih hm.2 fun d hd => h d (by simp [hd])⟩
      intro d hd
      rcases mem_insertCell.mp hd with rfl | hd
      · have := h e (by simp); omega
      · exact hm.1 d hd

theorem eraseCell_wf {m : List Host.Cell} (h : memoryWf m) (a : Nat) : memoryWf (eraseCell m a) :=
  ⟨h.1.filter _, fun c hc => h.2 c (List.mem_filter.mp hc).1⟩

/-- Every memory operation keeps the canonical form: one byte. -/
theorem writeByte_wf {m : List Host.Cell} (h : memoryWf m) (a : Nat) (b : Byte) : memoryWf (writeByte m a b) := by
  unfold writeByte
  split
  · exact eraseCell_wf h a
  · rename_i hb
    refine ⟨insertCell_sorted (eraseCell_wf h a).1 (eraseCell_ne m a), fun c hc => ?_⟩
    rcases mem_insertCell.mp hc with rfl | hc
    · exact hb
    · exact (eraseCell_wf h a).2 c hc

theorem writeByte_below {cap : Nat} {m : List Host.Cell} (h : memoryBelow cap m) {a : Nat} (ha : a < cap) (b : Byte) :
    memoryBelow cap (writeByte m a b) := by
  have he : memoryBelow cap (eraseCell m a) := fun c hc => h c (List.mem_filter.mp hc).1
  unfold writeByte
  split
  · exact he
  · intro c hc
    rcases mem_insertCell.mp hc with rfl | hc
    · exact ha
    · exact he c hc

theorem readByte_cons_of_lt {c : Host.Cell} {m : List Host.Cell} (h : ∀ d ∈ m, c.1 < d.1) {a : Nat} (ha : a ≤ c.1) :
    readByte m a = unlistedByte := by
  induction m with
  | nil => rfl
  | cons d rest ih =>
    obtain ⟨y, b⟩ := d
    have := h (y, b) (by simp)
    simp only at this
    simp only [readByte, show y ≠ a by omega, if_false]
    exact ih fun d hd => h d (by simp [hd])

/-- Memories in canonical form that read the same are the same data. -/
theorem memory_ext {m m' : List Host.Cell} (h : memoryWf m) (h' : memoryWf m')
    (hr : ∀ a, readByte m a = readByte m' a) : m = m' := by
  induction m generalizing m' with
  | nil =>
    cases m' with
    | nil => rfl
    | cons d rest =>
      exact absurd ((by simpa [readByte] using (hr d.1).symm)) (h'.2 d (by simp))
  | cons c rest ih =>
    cases m' with
    | nil => exact absurd ((by simpa [readByte] using hr c.1)) (h.2 c (by simp))
    | cons d rest' =>
      obtain ⟨x, b⟩ := c
      obtain ⟨y, e⟩ := d
      have h1 := List.pairwise_cons.mp h.1
      have h1' := List.pairwise_cons.mp h'.1
      have hb : b ≠ unlistedByte := h.2 (x, b) (by simp)
      have he : e ≠ unlistedByte := h'.2 (y, e) (by simp)
      have hxy : x = y := by
        rcases Nat.lt_trichotomy x y with hlt | heq | hgt
        · have := hr x
          rw [readByte_cons_of_lt (c := (x, b)) (m := (y, e) :: rest') (a := x) ?_ (le_refl _)] at this
          · exact absurd (by simpa [readByte] using this) hb
          · intro d hd
            rcases List.mem_cons.mp hd with rfl | hd
            · exact hlt
            · exact hlt.trans (h1'.1 d hd)
        · exact heq
        · have := hr y
          rw [readByte_cons_of_lt (c := (y, e)) (m := (x, b) :: rest) (a := y) ?_ (le_refl _)] at this
          · exact absurd (by simpa [readByte] using this.symm) he
          · intro d hd
            rcases List.mem_cons.mp hd with rfl | hd
            · exact hgt
            · exact hgt.trans (h1.1 d hd)
      subst hxy
      have hbe : b = e := by simpa [readByte] using hr x
      subst hbe
      have : rest = rest' := by
        refine ih ⟨h1.2, fun c hc => h.2 c (by simp [hc])⟩ ⟨h1'.2, fun c hc => h'.2 c (by simp [hc])⟩ fun a => ?_
        have ha := hr a
        simp only [readByte] at ha
        by_cases hxa : x = a
        · subst hxa
          rw [readByte_cons_of_lt (c := (x, b)) h1.1 (le_refl _), readByte_cons_of_lt (c := (x, b)) h1'.1 (le_refl _)]
        · simpa [hxa] using ha
      rw [this]

/-! ## Zero-fill -/

theorem readByte_zeroFill (cap : Nat) (m : List Host.Cell) (a : Nat) :
    readByte (zeroFill cap m) a = if a < cap then 0 else readByte m a := by
  induction m with
  | nil => simp [zeroFill, readByte, unlistedByte]
  | cons c rest ih =>
    obtain ⟨y, b⟩ := c
    simp only [zeroFill] at ih ⊢
    by_cases hy : cap ≤ y
    · simp only [List.filter_cons, hy, decide_true, if_true, readByte, ih]
      by_cases hya : y = a
      · subst hya; simp [Nat.not_lt.mpr hy]
      · simp [hya]
    · simp only [List.filter_cons, hy, decide_false, Bool.false_eq_true, if_false, ih, readByte]
      by_cases hya : y = a
      · subst hya; simp [Nat.not_le.mp hy]
      · simp [hya]

theorem zeroFill_wf {m : List Host.Cell} (h : memoryWf m) (cap : Nat) : memoryWf (zeroFill cap m) :=
  ⟨h.1.filter _, fun c hc => h.2 c (List.mem_filter.mp hc).1⟩

theorem zeroFill_below {cap : Nat} {m : List Host.Cell} (h : memoryBelow cap m) (cap' : Nat) :
    memoryBelow cap (zeroFill cap' m) := fun c hc => h c (List.mem_filter.mp hc).1

/-! ## One stream bit -/

theorem getLsbD_setBit (b : Byte) {i : Nat} (hi : i < 8) (v : Bool) (j : Nat) :
    (setBit b i v).getLsbD j = if j = i then v else b.getLsbD j := by
  have hp : ∀ j, (BitVec.ofNat 8 (2 ^ i)).getLsbD j = decide (j = i ∧ j < 8) := by
    intro j
    by_cases h8 : j < 8
    · simp only [BitVec.getLsbD_ofNat, h8, decide_true, Bool.true_and, Nat.testBit_two_pow, and_true]
      exact decide_eq_decide.mpr eq_comm
    · rw [BitVec.getLsbD_of_ge _ _ (by omega)]; simp [h8]
  unfold setBit
  split
  · rename_i h
    simp only [BitVec.getLsbD_or, hp]
    by_cases hj : j = i
    · simp [hj, hi, h]
    · simp [hj]
  · rename_i h
    simp only [BitVec.getLsbD_and, BitVec.getLsbD_not, hp]
    by_cases hj : j = i
    · simp [hj, hi, h]
    · by_cases h8 : j < 8
      · simp [hj, h8]
      · simp [h8, BitVec.getLsbD_of_ge b j (by omega), hj]

/-- Setting one stream bit sets it and no other. -/
@[simp] theorem streamBit_setStreamBit (m : List Host.Cell) (k j : Nat) (v : Bool) :
    streamBit (setStreamBit m k v) j = if j = k then v else streamBit m j := by
  unfold streamBit setStreamBit
  rw [readByte_writeByte]
  by_cases hb : j / 8 = k / 8
  · rw [if_pos hb, getLsbD_setBit _ (Nat.mod_lt _ (by decide)), hb]
    by_cases hj : j = k
    · simp [hj]
    · have : j % 8 ≠ k % 8 := by omega
      simp [hj, this]
  · rw [if_neg hb, if_neg (by rintro rfl; exact hb rfl)]

theorem setStreamBit_wf {m : List Host.Cell} (h : memoryWf m) (k : Nat) (v : Bool) : memoryWf (setStreamBit m k v) :=
  writeByte_wf h _ _

theorem setStreamBit_below {cap : Nat} {m : List Host.Cell} (h : memoryBelow cap m) {k : Nat} (hk : k < 8 * cap)
    (v : Bool) : memoryBelow cap (setStreamBit m k v) :=
  writeByte_below h (by omega) _

/-- A byte is its eight stream bits. -/
theorem readByte_eq_of_streamBit {m m' : List Host.Cell} {a : Nat}
    (h : ∀ i < 8, streamBit m (8 * a + i) = streamBit m' (8 * a + i)) : readByte m a = readByte m' a := by
  refine BitVec.eq_of_getLsbD_eq fun i hi => ?_
  have := h i hi
  unfold streamBit at this
  rwa [show (8 * a + i) / 8 = a by omega, show (8 * a + i) % 8 = i by omega] at this

theorem getLsbD_readByte (m : List Host.Cell) (a : Nat) {i : Nat} (hi : i < 8) :
    (readByte m a).getLsbD i = streamBit m (8 * a + i) := by
  unfold streamBit
  rw [show (8 * a + i) / 8 = a by omega, show (8 * a + i) % 8 = i by omega]

/-! ## Fields -/

/-- What a field write does to the bit stream (R54): its own bits, no other. -/
@[simp] theorem streamBit_putField (m : List Host.Cell) (off n v k : Nat) :
    streamBit (putField m off n v) k =
      if off ≤ k ∧ k < off + n then v.testBit (k - off) else streamBit m k := by
  induction n with
  | zero => rw [putField, if_neg (by omega)]
  | succ n ih =>
    rw [putField, streamBit_setStreamBit, ih]
    by_cases hk : k = off + n
    · subst hk; simp
    · rw [if_neg hk]
      by_cases h : off ≤ k ∧ k < off + n
      · rw [if_pos h, if_pos (by omega)]
      · rw [if_neg h, if_neg (by omega)]

theorem putField_wf {m : List Host.Cell} (h : memoryWf m) (off n v : Nat) : memoryWf (putField m off n v) := by
  induction n with
  | zero => exact h
  | succ n ih => exact setStreamBit_wf ih _ _

theorem putField_below {cap : Nat} {m : List Host.Cell} (h : memoryBelow cap m) {off n : Nat}
    (hn : off + n ≤ 8 * cap) (v : Nat) : memoryBelow cap (putField m off n v) := by
  induction n with
  | zero => exact h
  | succ n ih => exact setStreamBit_below (ih (by omega)) (by omega) _

/-- Every byte that holds no bit of the field reads as before (R58, R60). -/
theorem readByte_putField_outside (m : List Host.Cell) (off n v : Nat) {a : Nat}
    (ha : 8 * a + 8 ≤ off ∨ off + n ≤ 8 * a) : readByte (putField m off n v) a = readByte m a :=
  readByte_eq_of_streamBit fun i hi => by rw [streamBit_putField, if_neg (by omega)]

theorem fieldAt_lt (m : List Host.Cell) (off n : Nat) : fieldAt m off n < 2 ^ n := by
  induction n with
  | zero => simp [fieldAt]
  | succ n ih =>
    rw [fieldAt, Nat.pow_succ]
    split <;> omega

/-- What a field read returns (R53): bit `i` is stream bit `off + i`. -/
theorem testBit_fieldAt (m : List Host.Cell) (off n i : Nat) :
    (fieldAt m off n).testBit i = (decide (i < n) && streamBit m (off + i)) := by
  induction n with
  | zero => simp [fieldAt]
  | succ n ih =>
    have hlt := fieldAt_lt m off n
    rw [fieldAt]
    by_cases hb : streamBit m (off + n) = true
    · have hor : fieldAt m off n + 2 ^ n = 2 ^ n ||| fieldAt m off n := by
        have := Nat.two_pow_add_eq_or_of_lt hlt 1
        rwa [Nat.mul_one, Nat.add_comm] at this
      rw [if_pos hb, hor, Nat.testBit_or, Nat.testBit_two_pow, ih]
      by_cases hi : i = n
      · subst hi; simp [hb]
      · simp [Ne.symm hi, show i < n + 1 ↔ i < n by omega]
    · rw [if_neg hb, Nat.add_zero, ih]
      by_cases hi : i = n
      · subst hi; simp [hb]
      · simp [show i < n + 1 ↔ i < n by omega]

theorem fieldAt_eq_of_streamBit {m m' : List Host.Cell} {off off' n : Nat}
    (h : ∀ i < n, streamBit m (off + i) = streamBit m' (off' + i)) : fieldAt m off n = fieldAt m' off' n := by
  refine Nat.eq_of_testBit_eq fun i => ?_
  rw [testBit_fieldAt, testBit_fieldAt]
  by_cases hi : i < n
  · rw [h i hi]
  · simp [hi]

/-- A field reads back as the low bits of the value written there (R54). -/
@[simp] theorem fieldAt_putField_same (m : List Host.Cell) (off n v : Nat) :
    fieldAt (putField m off n v) off n = v % 2 ^ n := by
  refine Nat.eq_of_testBit_eq fun i => ?_
  rw [testBit_fieldAt, streamBit_putField, Nat.testBit_mod_two_pow]
  by_cases hi : i < n
  · simp [hi]
  · simp [hi]

/-- A field that shares no bit with the one written reads as before (R54). -/
theorem fieldAt_putField_disjoint (m : List Host.Cell) {off n off' n' : Nat} (v : Nat)
    (h : off' + n' ≤ off ∨ off + n ≤ off') : fieldAt (putField m off n v) off' n' = fieldAt m off' n' :=
  fieldAt_eq_of_streamBit fun i hi => by rw [streamBit_putField, if_neg (by omega)]

/-- A field is its low part and, above it, its high part. -/
theorem fieldAt_add (m : List Host.Cell) (off n k : Nat) :
    fieldAt m off (n + k) = fieldAt m off n + 2 ^ n * fieldAt m (off + n) k := by
  induction k with
  | zero => simp [fieldAt]
  | succ k ih =>
    rw [← Nat.add_assoc, fieldAt, ih, fieldAt, Nat.mul_add, Nat.add_assoc, ← Nat.add_assoc off]
    split <;> simp [Nat.pow_add]

/-- Only the low `n` bits of the value written matter (R54). -/
theorem putField_congr (m : List Host.Cell) (off : Nat) {n v v' : Nat} (h : ∀ i < n, v.testBit i = v'.testBit i) :
    putField m off n v = putField m off n v' := by
  induction n with
  | zero => rfl
  | succ n ih => rw [putField, putField, ih fun i hi => h i (by omega), h n (by omega)]

/-! ## Bounded access -/

/-- `GetBits` answers exactly where the field lies in memory (R53, R59). -/
theorem getBits_eq_some {capBits : Nat} {m : List Host.Cell} {off n f : Nat} :
    getBits capBits m off n = some f ↔ off + n ≤ capBits ∧ f = fieldAt m off n := by
  unfold getBits; split <;> simp_all [eq_comm]

theorem getBits_of_le {capBits : Nat} {m : List Host.Cell} {off n : Nat} (h : off + n ≤ capBits) :
    getBits capBits m off n = some (fieldAt m off n) := if_pos h

/-- `PutBits` answers exactly where the field lies in memory (R54, R59). -/
theorem putBits_eq_some {capBits : Nat} {m m' : List Host.Cell} {off n v : Nat} :
    putBits capBits m off n v = some m' ↔ off + n ≤ capBits ∧ m' = putField m off n v := by
  unfold putBits; split <;> simp_all [eq_comm]

theorem putBits_of_le {capBits : Nat} {m : List Host.Cell} {off n v : Nat} (h : off + n ≤ capBits) :
    putBits capBits m off n v = some (putField m off n v) := if_pos h

/-- The bytes `bs` laid one after another from `off`, without the bound. -/
def putFields (m : List Host.Cell) (off : Nat) : List Nat → List Host.Cell
  | [] => m
  | b :: bs => putFields (putField m off 8 b) (off + 8) bs

/-- A byte string that fits is written whole (R142). -/
theorem putBytes_of_le {capBits : Nat} {m : List Host.Cell} {off : Nat} {bs : List Nat}
    (h : off + 8 * bs.length ≤ capBits) : putBytes capBits m off bs = some (putFields m off bs) := by
  induction bs generalizing m off with
  | nil => rfl
  | cons b bs ih =>
    rw [List.length_cons] at h
    rw [putBytes, putBits_of_le (by omega)]
    exact ih (by omega)

/-- The bits of a byte string in memory: bit `k - off` of the string, no other bit changed (R60, R140). -/
theorem streamBit_putFields (m : List Host.Cell) (off : Nat) (bs : List Nat) (k : Nat) :
    streamBit (putFields m off bs) k =
      if off ≤ k ∧ k < off + 8 * bs.length then (bs.getD ((k - off) / 8) 0).testBit ((k - off) % 8)
      else streamBit m k := by
  induction bs generalizing m off with
  | nil => rw [putFields, if_neg (by simp)]
  | cons b bs ih =>
    rw [putFields, ih, List.length_cons, streamBit_putField]
    by_cases h8 : off ≤ k ∧ k < off + 8
    · rw [if_neg (by omega), if_pos h8, if_pos (by omega), show (k - off) / 8 = 0 by omega,
        show (k - off) % 8 = k - off by omega]
      rfl
    · by_cases hin : off + 8 ≤ k ∧ k < off + 8 + 8 * bs.length
      · rw [if_pos hin, if_pos (by omega), show (k - off) / 8 = (k - (off + 8)) / 8 + 1 by omega,
          show (k - off) % 8 = (k - (off + 8)) % 8 by omega]
        rfl
      · rw [if_neg hin, if_neg h8, if_neg (by omega)]

theorem putFields_wf {m : List Host.Cell} (h : memoryWf m) (off : Nat) (bs : List Nat) :
    memoryWf (putFields m off bs) := by
  induction bs generalizing m off with
  | nil => exact h
  | cons b bs ih => exact ih (putField_wf h _ _ _) _

theorem putFields_below {cap : Nat} {m : List Host.Cell} (h : memoryBelow cap m) {off : Nat} {bs : List Nat}
    (hn : off + 8 * bs.length ≤ 8 * cap) : memoryBelow cap (putFields m off bs) := by
  induction bs generalizing m off with
  | nil => exact h
  | cons b bs ih =>
    rw [List.length_cons] at hn
    exact ih (putField_below h (by omega) _) (by omega)

/-- Byte `j` of a byte string reads back (R140). -/
theorem fieldAt_putFields (m : List Host.Cell) (off : Nat) {bs : List Nat} (hbs : ∀ b ∈ bs, b < 256) {j : Nat}
    (hj : j < bs.length) : fieldAt (putFields m off bs) (off + 8 * j) 8 = bs.getD j 0 := by
  have hb : bs.getD j 0 < 2 ^ 8 := by
    rw [List.getD_eq_getElem _ _ hj]; exact hbs _ (List.getElem_mem hj)
  refine Nat.eq_of_testBit_eq fun i => ?_
  rw [testBit_fieldAt]
  by_cases hi : i < 8
  · rw [streamBit_putFields, if_pos (by omega), show (off + 8 * j + i - off) / 8 = j by omega,
      show (off + 8 * j + i - off) % 8 = i by omega]
    simp [hi]
  · rw [Nat.testBit_lt_two_pow (hb.trans_le (Nat.pow_le_pow_right (by decide) (by omega)))]
    simp [hi]

end Sys2Proof.Machine
end

