-- ==== Sys2Proof/Laws/State.lean ====
section
/-! SUPPORT. One lemma per field per named update of the state, true by `rfl`: no later proof unfolds a record
update. -/

namespace Sys2Proof.Machine

section

variable (s : State)

@[simp] theorem recordFault_val (f : FaultClass) (w : Word32) : (s.recordFault f w).val = s.val := rfl
@[simp] theorem recordFault_ofs (f : FaultClass) (w : Word32) : (s.recordFault f w).ofs = s.ofs := rfl
@[simp] theorem recordFault_lo (f : FaultClass) (w : Word32) : (s.recordFault f w).lo = s.lo := rfl
@[simp] theorem recordFault_hi (f : FaultClass) (w : Word32) : (s.recordFault f w).hi = s.hi := rfl
@[simp] theorem recordFault_fcode (f : FaultClass) (w : Word32) : (s.recordFault f w).fcode = faultCode f := rfl
@[simp] theorem recordFault_trunc (f : FaultClass) (w : Word32) : (s.recordFault f w).trunc = s.trunc := rfl
@[simp] theorem recordFault_fcmd (f : FaultClass) (w : Word32) : (s.recordFault f w).fcmd = w := rfl
@[simp] theorem recordFault_cnt (f : FaultClass) (w : Word32) : (s.recordFault f w).cnt = s.cnt := rfl
@[simp] theorem recordFault_len (f : FaultClass) (w : Word32) : (s.recordFault f w).len = s.len := rfl
@[simp] theorem recordFault_rlen (f : FaultClass) (w : Word32) : (s.recordFault f w).rlen = s.rlen := rfl
@[simp] theorem recordFault_pos (f : FaultClass) (w : Word32) : (s.recordFault f w).pos = s.pos := rfl
@[simp] theorem recordFault_mem (f : FaultClass) (w : Word32) : (s.recordFault f w).mem = s.mem := rfl
@[simp] theorem recordFault_capBytes (f : FaultClass) (w : Word32) : (s.recordFault f w).capBytes = s.capBytes := rfl
@[simp] theorem recordFault_pending (f : FaultClass) (w : Word32) : (s.recordFault f w).pending = s.pending := rfl
@[simp] theorem recordFault_replies (f : FaultClass) (w : Word32) : (s.recordFault f w).replies = s.replies := rfl
@[simp] theorem recordFault_freeDraws (f : FaultClass) (w : Word32) : (s.recordFault f w).freeDraws = s.freeDraws := rfl
@[simp] theorem recordFault_capBits (f : FaultClass) (w : Word32) : (s.recordFault f w).capBits = s.capBits := rfl

@[simp] theorem softReset_val : s.softReset.val = 0 := rfl
@[simp] theorem softReset_ofs : s.softReset.ofs = 0 := rfl
@[simp] theorem softReset_lo : s.softReset.lo = 0 := rfl
@[simp] theorem softReset_hi : s.softReset.hi = 0 := rfl
@[simp] theorem softReset_fcode : s.softReset.fcode = 0 := rfl
@[simp] theorem softReset_trunc : s.softReset.trunc = false := rfl
@[simp] theorem softReset_fcmd : s.softReset.fcmd = 0 := rfl
@[simp] theorem softReset_cnt : s.softReset.cnt = 0 := rfl
@[simp] theorem softReset_len : s.softReset.len = 0 := rfl
@[simp] theorem softReset_rlen : s.softReset.rlen = 0 := rfl
@[simp] theorem softReset_pos : s.softReset.pos = 0 := rfl
@[simp] theorem softReset_mem : s.softReset.mem = s.mem := rfl
@[simp] theorem softReset_capBytes : s.softReset.capBytes = s.capBytes := rfl
@[simp] theorem softReset_pending : s.softReset.pending = s.pending := rfl
@[simp] theorem softReset_replies : s.softReset.replies = s.replies := rfl
@[simp] theorem softReset_freeDraws : s.softReset.freeDraws = s.freeDraws := rfl
@[simp] theorem softReset_capBits : s.softReset.capBits = s.capBits := rfl

@[simp] theorem written_val (m : List Host.Cell) (l n : Nat) : (s.written m l n).val = s.val := rfl
@[simp] theorem written_ofs (m : List Host.Cell) (l n : Nat) : (s.written m l n).ofs = s.ofs := rfl
@[simp] theorem written_lo (m : List Host.Cell) (l n : Nat) : (s.written m l n).lo = s.lo := rfl
@[simp] theorem written_hi (m : List Host.Cell) (l n : Nat) : (s.written m l n).hi = s.hi := rfl
@[simp] theorem written_fcode (m : List Host.Cell) (l n : Nat) : (s.written m l n).fcode = s.fcode := rfl
@[simp] theorem written_trunc (m : List Host.Cell) (l n : Nat) : (s.written m l n).trunc = s.trunc := rfl
@[simp] theorem written_fcmd (m : List Host.Cell) (l n : Nat) : (s.written m l n).fcmd = s.fcmd := rfl
@[simp] theorem written_cnt (m : List Host.Cell) (l n : Nat) : (s.written m l n).cnt = word32 n := rfl
@[simp] theorem written_len (m : List Host.Cell) (l n : Nat) : (s.written m l n).len = word32 l := rfl
@[simp] theorem written_rlen (m : List Host.Cell) (l n : Nat) : (s.written m l n).rlen = s.rlen := rfl
@[simp] theorem written_pos (m : List Host.Cell) (l n : Nat) : (s.written m l n).pos = s.pos := rfl
@[simp] theorem written_mem (m : List Host.Cell) (l n : Nat) : (s.written m l n).mem = m := rfl
@[simp] theorem written_capBytes (m : List Host.Cell) (l n : Nat) : (s.written m l n).capBytes = s.capBytes := rfl
@[simp] theorem written_pending (m : List Host.Cell) (l n : Nat) : (s.written m l n).pending = s.pending := rfl
@[simp] theorem written_replies (m : List Host.Cell) (l n : Nat) : (s.written m l n).replies = s.replies := rfl
@[simp] theorem written_freeDraws (m : List Host.Cell) (l n : Nat) : (s.written m l n).freeDraws = s.freeDraws := rfl
@[simp] theorem written_capBits (m : List Host.Cell) (l n : Nat) : (s.written m l n).capBits = s.capBits := rfl

@[simp] theorem created_val : s.created.val = s.val := rfl
@[simp] theorem created_ofs : s.created.ofs = s.ofs := rfl
@[simp] theorem created_lo : s.created.lo = s.lo := rfl
@[simp] theorem created_hi : s.created.hi = s.hi := rfl
@[simp] theorem created_fcode : s.created.fcode = s.fcode := rfl
@[simp] theorem created_trunc : s.created.trunc = s.trunc := rfl
@[simp] theorem created_fcmd : s.created.fcmd = s.fcmd := rfl
@[simp] theorem created_cnt : s.created.cnt = s.cnt := rfl
@[simp] theorem created_len : s.created.len = 0 := rfl
@[simp] theorem created_rlen : s.created.rlen = s.rlen := rfl
@[simp] theorem created_pos : s.created.pos = s.pos := rfl
@[simp] theorem created_mem : s.created.mem = zeroFill s.capBytes.val s.mem := rfl
@[simp] theorem created_capBytes : s.created.capBytes = s.capBytes := rfl
@[simp] theorem created_pending : s.created.pending = s.pending := rfl
@[simp] theorem created_replies : s.created.replies = s.replies := rfl
@[simp] theorem created_freeDraws : s.created.freeDraws = s.freeDraws := rfl
@[simp] theorem created_capBits : s.created.capBits = s.capBits := rfl

@[simp] theorem setLen_val (b : Nat) : (s.setLen b).val = s.val := rfl
@[simp] theorem setLen_ofs (b : Nat) : (s.setLen b).ofs = s.ofs := rfl
@[simp] theorem setLen_lo (b : Nat) : (s.setLen b).lo = s.lo := rfl
@[simp] theorem setLen_hi (b : Nat) : (s.setLen b).hi = s.hi := rfl
@[simp] theorem setLen_fcode (b : Nat) : (s.setLen b).fcode = s.fcode := rfl
@[simp] theorem setLen_trunc (b : Nat) : (s.setLen b).trunc = s.trunc := rfl
@[simp] theorem setLen_fcmd (b : Nat) : (s.setLen b).fcmd = s.fcmd := rfl
@[simp] theorem setLen_cnt (b : Nat) : (s.setLen b).cnt = s.cnt := rfl
@[simp] theorem setLen_len (b : Nat) : (s.setLen b).len = word32 b := rfl
@[simp] theorem setLen_rlen (b : Nat) : (s.setLen b).rlen = s.rlen := rfl
@[simp] theorem setLen_pos (b : Nat) : (s.setLen b).pos = s.pos := rfl
@[simp] theorem setLen_mem (b : Nat) : (s.setLen b).mem = s.mem := rfl
@[simp] theorem setLen_capBytes (b : Nat) : (s.setLen b).capBytes = s.capBytes := rfl
@[simp] theorem setLen_pending (b : Nat) : (s.setLen b).pending = s.pending := rfl
@[simp] theorem setLen_replies (b : Nat) : (s.setLen b).replies = s.replies := rfl
@[simp] theorem setLen_freeDraws (b : Nat) : (s.setLen b).freeDraws = s.freeDraws := rfl
@[simp] theorem setLen_capBits (b : Nat) : (s.setLen b).capBits = s.capBits := rfl

@[simp] theorem openReader_val (b : Nat) : (s.openReader b).val = s.val := rfl
@[simp] theorem openReader_ofs (b : Nat) : (s.openReader b).ofs = s.ofs := rfl
@[simp] theorem openReader_lo (b : Nat) : (s.openReader b).lo = s.lo := rfl
@[simp] theorem openReader_hi (b : Nat) : (s.openReader b).hi = s.hi := rfl
@[simp] theorem openReader_fcode (b : Nat) : (s.openReader b).fcode = s.fcode := rfl
@[simp] theorem openReader_trunc (b : Nat) : (s.openReader b).trunc = s.trunc := rfl
@[simp] theorem openReader_fcmd (b : Nat) : (s.openReader b).fcmd = s.fcmd := rfl
@[simp] theorem openReader_cnt (b : Nat) : (s.openReader b).cnt = s.cnt := rfl
@[simp] theorem openReader_len (b : Nat) : (s.openReader b).len = s.len := rfl
@[simp] theorem openReader_rlen (b : Nat) : (s.openReader b).rlen = word32 b := rfl
@[simp] theorem openReader_pos (b : Nat) : (s.openReader b).pos = 0 := rfl
@[simp] theorem openReader_mem (b : Nat) : (s.openReader b).mem = s.mem := rfl
@[simp] theorem openReader_capBytes (b : Nat) : (s.openReader b).capBytes = s.capBytes := rfl
@[simp] theorem openReader_pending (b : Nat) : (s.openReader b).pending = s.pending := rfl
@[simp] theorem openReader_replies (b : Nat) : (s.openReader b).replies = s.replies := rfl
@[simp] theorem openReader_freeDraws (b : Nat) : (s.openReader b).freeDraws = s.freeDraws := rfl
@[simp] theorem openReader_capBits (b : Nat) : (s.openReader b).capBits = s.capBits := rfl

@[simp] theorem seek_val : s.seek.val = s.val := rfl
@[simp] theorem seek_ofs : s.seek.ofs = s.ofs := rfl
@[simp] theorem seek_lo : s.seek.lo = s.lo := rfl
@[simp] theorem seek_hi : s.seek.hi = s.hi := rfl
@[simp] theorem seek_fcode : s.seek.fcode = s.fcode := rfl
@[simp] theorem seek_trunc : s.seek.trunc = s.trunc := rfl
@[simp] theorem seek_fcmd : s.seek.fcmd = s.fcmd := rfl
@[simp] theorem seek_cnt : s.seek.cnt = s.cnt := rfl
@[simp] theorem seek_len : s.seek.len = s.len := rfl
@[simp] theorem seek_rlen : s.seek.rlen = s.rlen := rfl
@[simp] theorem seek_pos : s.seek.pos = s.ofs := rfl
@[simp] theorem seek_mem : s.seek.mem = s.mem := rfl
@[simp] theorem seek_capBytes : s.seek.capBytes = s.capBytes := rfl
@[simp] theorem seek_pending : s.seek.pending = s.pending := rfl
@[simp] theorem seek_replies : s.seek.replies = s.replies := rfl
@[simp] theorem seek_freeDraws : s.seek.freeDraws = s.freeDraws := rfl
@[simp] theorem seek_capBits : s.seek.capBits = s.capBits := rfl

@[simp] theorem padded_val (n : Nat) : (s.padded n).val = s.val := rfl
@[simp] theorem padded_ofs (n : Nat) : (s.padded n).ofs = s.ofs := rfl
@[simp] theorem padded_lo (n : Nat) : (s.padded n).lo = s.lo := rfl
@[simp] theorem padded_hi (n : Nat) : (s.padded n).hi = s.hi := rfl
@[simp] theorem padded_fcode (n : Nat) : (s.padded n).fcode = s.fcode := rfl
@[simp] theorem padded_trunc (n : Nat) : (s.padded n).trunc = s.trunc := rfl
@[simp] theorem padded_fcmd (n : Nat) : (s.padded n).fcmd = s.fcmd := rfl
@[simp] theorem padded_cnt (n : Nat) : (s.padded n).cnt = word32 n := rfl
@[simp] theorem padded_len (n : Nat) : (s.padded n).len = word32 (s.len.toNat + n) := rfl
@[simp] theorem padded_rlen (n : Nat) : (s.padded n).rlen = s.rlen := rfl
@[simp] theorem padded_pos (n : Nat) : (s.padded n).pos = s.pos := rfl
@[simp] theorem padded_mem (n : Nat) : (s.padded n).mem = s.mem := rfl
@[simp] theorem padded_capBytes (n : Nat) : (s.padded n).capBytes = s.capBytes := rfl
@[simp] theorem padded_pending (n : Nat) : (s.padded n).pending = s.pending := rfl
@[simp] theorem padded_replies (n : Nat) : (s.padded n).replies = s.replies := rfl
@[simp] theorem padded_freeDraws (n : Nat) : (s.padded n).freeDraws = s.freeDraws := rfl
@[simp] theorem padded_capBits (n : Nat) : (s.padded n).capBits = s.capBits := rfl

@[simp] theorem skipped_val (n : Nat) : (s.skipped n).val = s.val := rfl
@[simp] theorem skipped_ofs (n : Nat) : (s.skipped n).ofs = s.ofs := rfl
@[simp] theorem skipped_lo (n : Nat) : (s.skipped n).lo = s.lo := rfl
@[simp] theorem skipped_hi (n : Nat) : (s.skipped n).hi = s.hi := rfl
@[simp] theorem skipped_fcode (n : Nat) : (s.skipped n).fcode = s.fcode := rfl
@[simp] theorem skipped_trunc (n : Nat) : (s.skipped n).trunc = s.trunc := rfl
@[simp] theorem skipped_fcmd (n : Nat) : (s.skipped n).fcmd = s.fcmd := rfl
@[simp] theorem skipped_cnt (n : Nat) : (s.skipped n).cnt = word32 n := rfl
@[simp] theorem skipped_len (n : Nat) : (s.skipped n).len = s.len := rfl
@[simp] theorem skipped_rlen (n : Nat) : (s.skipped n).rlen = s.rlen := rfl
@[simp] theorem skipped_pos (n : Nat) : (s.skipped n).pos = word32 (s.pos.toNat + n) := rfl
@[simp] theorem skipped_mem (n : Nat) : (s.skipped n).mem = s.mem := rfl
@[simp] theorem skipped_capBytes (n : Nat) : (s.skipped n).capBytes = s.capBytes := rfl
@[simp] theorem skipped_pending (n : Nat) : (s.skipped n).pending = s.pending := rfl
@[simp] theorem skipped_replies (n : Nat) : (s.skipped n).replies = s.replies := rfl
@[simp] theorem skipped_freeDraws (n : Nat) : (s.skipped n).freeDraws = s.freeDraws := rfl
@[simp] theorem skipped_capBits (n : Nat) : (s.skipped n).capBits = s.capBits := rfl

@[simp] theorem peeked_val (v : Word64) (n : Nat) : (s.peeked v n).val = v := rfl
@[simp] theorem peeked_ofs (v : Word64) (n : Nat) : (s.peeked v n).ofs = s.ofs := rfl
@[simp] theorem peeked_lo (v : Word64) (n : Nat) : (s.peeked v n).lo = s.lo := rfl
@[simp] theorem peeked_hi (v : Word64) (n : Nat) : (s.peeked v n).hi = s.hi := rfl
@[simp] theorem peeked_fcode (v : Word64) (n : Nat) : (s.peeked v n).fcode = s.fcode := rfl
@[simp] theorem peeked_trunc (v : Word64) (n : Nat) : (s.peeked v n).trunc = s.trunc := rfl
@[simp] theorem peeked_fcmd (v : Word64) (n : Nat) : (s.peeked v n).fcmd = s.fcmd := rfl
@[simp] theorem peeked_cnt (v : Word64) (n : Nat) : (s.peeked v n).cnt = word32 n := rfl
@[simp] theorem peeked_len (v : Word64) (n : Nat) : (s.peeked v n).len = s.len := rfl
@[simp] theorem peeked_rlen (v : Word64) (n : Nat) : (s.peeked v n).rlen = s.rlen := rfl
@[simp] theorem peeked_pos (v : Word64) (n : Nat) : (s.peeked v n).pos = s.pos := rfl
@[simp] theorem peeked_mem (v : Word64) (n : Nat) : (s.peeked v n).mem = s.mem := rfl
@[simp] theorem peeked_capBytes (v : Word64) (n : Nat) : (s.peeked v n).capBytes = s.capBytes := rfl
@[simp] theorem peeked_pending (v : Word64) (n : Nat) : (s.peeked v n).pending = s.pending := rfl
@[simp] theorem peeked_replies (v : Word64) (n : Nat) : (s.peeked v n).replies = s.replies := rfl
@[simp] theorem peeked_freeDraws (v : Word64) (n : Nat) : (s.peeked v n).freeDraws = s.freeDraws := rfl
@[simp] theorem peeked_capBits (v : Word64) (n : Nat) : (s.peeked v n).capBits = s.capBits := rfl

@[simp] theorem consumed_val (v : Word64) (n : Nat) : (s.consumed v n).val = v := rfl
@[simp] theorem consumed_ofs (v : Word64) (n : Nat) : (s.consumed v n).ofs = s.ofs := rfl
@[simp] theorem consumed_lo (v : Word64) (n : Nat) : (s.consumed v n).lo = s.lo := rfl
@[simp] theorem consumed_hi (v : Word64) (n : Nat) : (s.consumed v n).hi = s.hi := rfl
@[simp] theorem consumed_fcode (v : Word64) (n : Nat) : (s.consumed v n).fcode = s.fcode := rfl
@[simp] theorem consumed_trunc (v : Word64) (n : Nat) : (s.consumed v n).trunc = s.trunc := rfl
@[simp] theorem consumed_fcmd (v : Word64) (n : Nat) : (s.consumed v n).fcmd = s.fcmd := rfl
@[simp] theorem consumed_cnt (v : Word64) (n : Nat) : (s.consumed v n).cnt = word32 n := rfl
@[simp] theorem consumed_len (v : Word64) (n : Nat) : (s.consumed v n).len = s.len := rfl
@[simp] theorem consumed_rlen (v : Word64) (n : Nat) : (s.consumed v n).rlen = s.rlen := rfl
@[simp] theorem consumed_pos (v : Word64) (n : Nat) : (s.consumed v n).pos = word32 (s.pos.toNat + n) := rfl
@[simp] theorem consumed_mem (v : Word64) (n : Nat) : (s.consumed v n).mem = s.mem := rfl
@[simp] theorem consumed_capBytes (v : Word64) (n : Nat) : (s.consumed v n).capBytes = s.capBytes := rfl
@[simp] theorem consumed_pending (v : Word64) (n : Nat) : (s.consumed v n).pending = s.pending := rfl
@[simp] theorem consumed_replies (v : Word64) (n : Nat) : (s.consumed v n).replies = s.replies := rfl
@[simp] theorem consumed_freeDraws (v : Word64) (n : Nat) : (s.consumed v n).freeDraws = s.freeDraws := rfl
@[simp] theorem consumed_capBits (v : Word64) (n : Nat) : (s.consumed v n).capBits = s.capBits := rfl

@[simp] theorem peekedVar_val (v : Word64) (p : Nat) (t : Bool) : (s.peekedVar v p t).val = v := rfl
@[simp] theorem peekedVar_ofs (v : Word64) (p : Nat) (t : Bool) : (s.peekedVar v p t).ofs = s.ofs := rfl
@[simp] theorem peekedVar_lo (v : Word64) (p : Nat) (t : Bool) : (s.peekedVar v p t).lo = s.lo := rfl
@[simp] theorem peekedVar_hi (v : Word64) (p : Nat) (t : Bool) : (s.peekedVar v p t).hi = s.hi := rfl
@[simp] theorem peekedVar_fcode (v : Word64) (p : Nat) (t : Bool) : (s.peekedVar v p t).fcode = s.fcode := rfl
@[simp] theorem peekedVar_trunc (v : Word64) (p : Nat) (t : Bool) : (s.peekedVar v p t).trunc = t := rfl
@[simp] theorem peekedVar_fcmd (v : Word64) (p : Nat) (t : Bool) : (s.peekedVar v p t).fcmd = s.fcmd := rfl
@[simp] theorem peekedVar_cnt (v : Word64) (p : Nat) (t : Bool) : (s.peekedVar v p t).cnt = word32 (p - s.pos.toNat) := rfl
@[simp] theorem peekedVar_len (v : Word64) (p : Nat) (t : Bool) : (s.peekedVar v p t).len = s.len := rfl
@[simp] theorem peekedVar_rlen (v : Word64) (p : Nat) (t : Bool) : (s.peekedVar v p t).rlen = s.rlen := rfl
@[simp] theorem peekedVar_pos (v : Word64) (p : Nat) (t : Bool) : (s.peekedVar v p t).pos = s.pos := rfl
@[simp] theorem peekedVar_mem (v : Word64) (p : Nat) (t : Bool) : (s.peekedVar v p t).mem = s.mem := rfl
@[simp] theorem peekedVar_capBytes (v : Word64) (p : Nat) (t : Bool) : (s.peekedVar v p t).capBytes = s.capBytes := rfl
@[simp] theorem peekedVar_pending (v : Word64) (p : Nat) (t : Bool) : (s.peekedVar v p t).pending = s.pending := rfl
@[simp] theorem peekedVar_replies (v : Word64) (p : Nat) (t : Bool) : (s.peekedVar v p t).replies = s.replies := rfl
@[simp] theorem peekedVar_freeDraws (v : Word64) (p : Nat) (t : Bool) : (s.peekedVar v p t).freeDraws = s.freeDraws := rfl
@[simp] theorem peekedVar_capBits (v : Word64) (p : Nat) (t : Bool) : (s.peekedVar v p t).capBits = s.capBits := rfl

@[simp] theorem consumedVar_val (v : Word64) (p : Nat) (t : Bool) : (s.consumedVar v p t).val = v := rfl
@[simp] theorem consumedVar_ofs (v : Word64) (p : Nat) (t : Bool) : (s.consumedVar v p t).ofs = s.ofs := rfl
@[simp] theorem consumedVar_lo (v : Word64) (p : Nat) (t : Bool) : (s.consumedVar v p t).lo = s.lo := rfl
@[simp] theorem consumedVar_hi (v : Word64) (p : Nat) (t : Bool) : (s.consumedVar v p t).hi = s.hi := rfl
@[simp] theorem consumedVar_fcode (v : Word64) (p : Nat) (t : Bool) : (s.consumedVar v p t).fcode = s.fcode := rfl
@[simp] theorem consumedVar_trunc (v : Word64) (p : Nat) (t : Bool) : (s.consumedVar v p t).trunc = t := rfl
@[simp] theorem consumedVar_fcmd (v : Word64) (p : Nat) (t : Bool) : (s.consumedVar v p t).fcmd = s.fcmd := rfl
@[simp] theorem consumedVar_cnt (v : Word64) (p : Nat) (t : Bool) : (s.consumedVar v p t).cnt = word32 (p - s.pos.toNat) := rfl
@[simp] theorem consumedVar_len (v : Word64) (p : Nat) (t : Bool) : (s.consumedVar v p t).len = s.len := rfl
@[simp] theorem consumedVar_rlen (v : Word64) (p : Nat) (t : Bool) : (s.consumedVar v p t).rlen = s.rlen := rfl
@[simp] theorem consumedVar_pos (v : Word64) (p : Nat) (t : Bool) : (s.consumedVar v p t).pos = word32 p := rfl
@[simp] theorem consumedVar_mem (v : Word64) (p : Nat) (t : Bool) : (s.consumedVar v p t).mem = s.mem := rfl
@[simp] theorem consumedVar_capBytes (v : Word64) (p : Nat) (t : Bool) : (s.consumedVar v p t).capBytes = s.capBytes := rfl
@[simp] theorem consumedVar_pending (v : Word64) (p : Nat) (t : Bool) : (s.consumedVar v p t).pending = s.pending := rfl
@[simp] theorem consumedVar_replies (v : Word64) (p : Nat) (t : Bool) : (s.consumedVar v p t).replies = s.replies := rfl
@[simp] theorem consumedVar_freeDraws (v : Word64) (p : Nat) (t : Bool) : (s.consumedVar v p t).freeDraws = s.freeDraws := rfl
@[simp] theorem consumedVar_capBits (v : Word64) (p : Nat) (t : Bool) : (s.consumedVar v p t).capBits = s.capBits := rfl

@[simp] theorem withMem_val (m : List Host.Cell) : (s.withMem m).val = s.val := rfl
@[simp] theorem withMem_ofs (m : List Host.Cell) : (s.withMem m).ofs = s.ofs := rfl
@[simp] theorem withMem_lo (m : List Host.Cell) : (s.withMem m).lo = s.lo := rfl
@[simp] theorem withMem_hi (m : List Host.Cell) : (s.withMem m).hi = s.hi := rfl
@[simp] theorem withMem_fcode (m : List Host.Cell) : (s.withMem m).fcode = s.fcode := rfl
@[simp] theorem withMem_trunc (m : List Host.Cell) : (s.withMem m).trunc = s.trunc := rfl
@[simp] theorem withMem_fcmd (m : List Host.Cell) : (s.withMem m).fcmd = s.fcmd := rfl
@[simp] theorem withMem_cnt (m : List Host.Cell) : (s.withMem m).cnt = s.cnt := rfl
@[simp] theorem withMem_len (m : List Host.Cell) : (s.withMem m).len = s.len := rfl
@[simp] theorem withMem_rlen (m : List Host.Cell) : (s.withMem m).rlen = s.rlen := rfl
@[simp] theorem withMem_pos (m : List Host.Cell) : (s.withMem m).pos = s.pos := rfl
@[simp] theorem withMem_mem (m : List Host.Cell) : (s.withMem m).mem = m := rfl
@[simp] theorem withMem_capBytes (m : List Host.Cell) : (s.withMem m).capBytes = s.capBytes := rfl
@[simp] theorem withMem_pending (m : List Host.Cell) : (s.withMem m).pending = s.pending := rfl
@[simp] theorem withMem_replies (m : List Host.Cell) : (s.withMem m).replies = s.replies := rfl
@[simp] theorem withMem_freeDraws (m : List Host.Cell) : (s.withMem m).freeDraws = s.freeDraws := rfl
@[simp] theorem withMem_capBits (m : List Host.Cell) : (s.withMem m).capBits = s.capBits := rfl

@[simp] theorem setVal_val (v : Word64) : (s.setVal v).val = v := rfl
@[simp] theorem setVal_ofs (v : Word64) : (s.setVal v).ofs = s.ofs := rfl
@[simp] theorem setVal_lo (v : Word64) : (s.setVal v).lo = s.lo := rfl
@[simp] theorem setVal_hi (v : Word64) : (s.setVal v).hi = s.hi := rfl
@[simp] theorem setVal_fcode (v : Word64) : (s.setVal v).fcode = s.fcode := rfl
@[simp] theorem setVal_trunc (v : Word64) : (s.setVal v).trunc = s.trunc := rfl
@[simp] theorem setVal_fcmd (v : Word64) : (s.setVal v).fcmd = s.fcmd := rfl
@[simp] theorem setVal_cnt (v : Word64) : (s.setVal v).cnt = s.cnt := rfl
@[simp] theorem setVal_len (v : Word64) : (s.setVal v).len = s.len := rfl
@[simp] theorem setVal_rlen (v : Word64) : (s.setVal v).rlen = s.rlen := rfl
@[simp] theorem setVal_pos (v : Word64) : (s.setVal v).pos = s.pos := rfl
@[simp] theorem setVal_mem (v : Word64) : (s.setVal v).mem = s.mem := rfl
@[simp] theorem setVal_capBytes (v : Word64) : (s.setVal v).capBytes = s.capBytes := rfl
@[simp] theorem setVal_pending (v : Word64) : (s.setVal v).pending = s.pending := rfl
@[simp] theorem setVal_replies (v : Word64) : (s.setVal v).replies = s.replies := rfl
@[simp] theorem setVal_freeDraws (v : Word64) : (s.setVal v).freeDraws = s.freeDraws := rfl
@[simp] theorem setVal_capBits (v : Word64) : (s.setVal v).capBits = s.capBits := rfl

@[simp] theorem setOfs_val (v : Word32) : (s.setOfs v).val = s.val := rfl
@[simp] theorem setOfs_ofs (v : Word32) : (s.setOfs v).ofs = v := rfl
@[simp] theorem setOfs_lo (v : Word32) : (s.setOfs v).lo = s.lo := rfl
@[simp] theorem setOfs_hi (v : Word32) : (s.setOfs v).hi = s.hi := rfl
@[simp] theorem setOfs_fcode (v : Word32) : (s.setOfs v).fcode = s.fcode := rfl
@[simp] theorem setOfs_trunc (v : Word32) : (s.setOfs v).trunc = s.trunc := rfl
@[simp] theorem setOfs_fcmd (v : Word32) : (s.setOfs v).fcmd = s.fcmd := rfl
@[simp] theorem setOfs_cnt (v : Word32) : (s.setOfs v).cnt = s.cnt := rfl
@[simp] theorem setOfs_len (v : Word32) : (s.setOfs v).len = s.len := rfl
@[simp] theorem setOfs_rlen (v : Word32) : (s.setOfs v).rlen = s.rlen := rfl
@[simp] theorem setOfs_pos (v : Word32) : (s.setOfs v).pos = s.pos := rfl
@[simp] theorem setOfs_mem (v : Word32) : (s.setOfs v).mem = s.mem := rfl
@[simp] theorem setOfs_capBytes (v : Word32) : (s.setOfs v).capBytes = s.capBytes := rfl
@[simp] theorem setOfs_pending (v : Word32) : (s.setOfs v).pending = s.pending := rfl
@[simp] theorem setOfs_replies (v : Word32) : (s.setOfs v).replies = s.replies := rfl
@[simp] theorem setOfs_freeDraws (v : Word32) : (s.setOfs v).freeDraws = s.freeDraws := rfl
@[simp] theorem setOfs_capBits (v : Word32) : (s.setOfs v).capBits = s.capBits := rfl

@[simp] theorem setLo_val (v : Word64) : (s.setLo v).val = s.val := rfl
@[simp] theorem setLo_ofs (v : Word64) : (s.setLo v).ofs = s.ofs := rfl
@[simp] theorem setLo_lo (v : Word64) : (s.setLo v).lo = v := rfl
@[simp] theorem setLo_hi (v : Word64) : (s.setLo v).hi = s.hi := rfl
@[simp] theorem setLo_fcode (v : Word64) : (s.setLo v).fcode = s.fcode := rfl
@[simp] theorem setLo_trunc (v : Word64) : (s.setLo v).trunc = s.trunc := rfl
@[simp] theorem setLo_fcmd (v : Word64) : (s.setLo v).fcmd = s.fcmd := rfl
@[simp] theorem setLo_cnt (v : Word64) : (s.setLo v).cnt = s.cnt := rfl
@[simp] theorem setLo_len (v : Word64) : (s.setLo v).len = s.len := rfl
@[simp] theorem setLo_rlen (v : Word64) : (s.setLo v).rlen = s.rlen := rfl
@[simp] theorem setLo_pos (v : Word64) : (s.setLo v).pos = s.pos := rfl
@[simp] theorem setLo_mem (v : Word64) : (s.setLo v).mem = s.mem := rfl
@[simp] theorem setLo_capBytes (v : Word64) : (s.setLo v).capBytes = s.capBytes := rfl
@[simp] theorem setLo_pending (v : Word64) : (s.setLo v).pending = s.pending := rfl
@[simp] theorem setLo_replies (v : Word64) : (s.setLo v).replies = s.replies := rfl
@[simp] theorem setLo_freeDraws (v : Word64) : (s.setLo v).freeDraws = s.freeDraws := rfl
@[simp] theorem setLo_capBits (v : Word64) : (s.setLo v).capBits = s.capBits := rfl

@[simp] theorem setHi_val (v : Word64) : (s.setHi v).val = s.val := rfl
@[simp] theorem setHi_ofs (v : Word64) : (s.setHi v).ofs = s.ofs := rfl
@[simp] theorem setHi_lo (v : Word64) : (s.setHi v).lo = s.lo := rfl
@[simp] theorem setHi_hi (v : Word64) : (s.setHi v).hi = v := rfl
@[simp] theorem setHi_fcode (v : Word64) : (s.setHi v).fcode = s.fcode := rfl
@[simp] theorem setHi_trunc (v : Word64) : (s.setHi v).trunc = s.trunc := rfl
@[simp] theorem setHi_fcmd (v : Word64) : (s.setHi v).fcmd = s.fcmd := rfl
@[simp] theorem setHi_cnt (v : Word64) : (s.setHi v).cnt = s.cnt := rfl
@[simp] theorem setHi_len (v : Word64) : (s.setHi v).len = s.len := rfl
@[simp] theorem setHi_rlen (v : Word64) : (s.setHi v).rlen = s.rlen := rfl
@[simp] theorem setHi_pos (v : Word64) : (s.setHi v).pos = s.pos := rfl
@[simp] theorem setHi_mem (v : Word64) : (s.setHi v).mem = s.mem := rfl
@[simp] theorem setHi_capBytes (v : Word64) : (s.setHi v).capBytes = s.capBytes := rfl
@[simp] theorem setHi_pending (v : Word64) : (s.setHi v).pending = s.pending := rfl
@[simp] theorem setHi_replies (v : Word64) : (s.setHi v).replies = s.replies := rfl
@[simp] theorem setHi_freeDraws (v : Word64) : (s.setHi v).freeDraws = s.freeDraws := rfl
@[simp] theorem setHi_capBits (v : Word64) : (s.setHi v).capBits = s.capBits := rfl

@[simp] theorem replied_val (r : Reply) : (s.replied r).val = s.val := rfl
@[simp] theorem replied_ofs (r : Reply) : (s.replied r).ofs = s.ofs := rfl
@[simp] theorem replied_lo (r : Reply) : (s.replied r).lo = s.lo := rfl
@[simp] theorem replied_hi (r : Reply) : (s.replied r).hi = s.hi := rfl
@[simp] theorem replied_fcode (r : Reply) : (s.replied r).fcode = s.fcode := rfl
@[simp] theorem replied_trunc (r : Reply) : (s.replied r).trunc = s.trunc := rfl
@[simp] theorem replied_fcmd (r : Reply) : (s.replied r).fcmd = s.fcmd := rfl
@[simp] theorem replied_cnt (r : Reply) : (s.replied r).cnt = s.cnt := rfl
@[simp] theorem replied_len (r : Reply) : (s.replied r).len = s.len := rfl
@[simp] theorem replied_rlen (r : Reply) : (s.replied r).rlen = s.rlen := rfl
@[simp] theorem replied_pos (r : Reply) : (s.replied r).pos = s.pos := rfl
@[simp] theorem replied_mem (r : Reply) : (s.replied r).mem = s.mem := rfl
@[simp] theorem replied_capBytes (r : Reply) : (s.replied r).capBytes = s.capBytes := rfl
@[simp] theorem replied_pending (r : Reply) : (s.replied r).pending = s.pending := rfl
@[simp] theorem replied_replies (r : Reply) : (s.replied r).replies = s.replies ++ [r] := rfl
@[simp] theorem replied_freeDraws (r : Reply) : (s.replied r).freeDraws = s.freeDraws := rfl
@[simp] theorem replied_capBits (r : Reply) : (s.replied r).capBits = s.capBits := rfl

@[simp] theorem drawn_val : s.drawn.val = s.val := rfl
@[simp] theorem drawn_ofs : s.drawn.ofs = s.ofs := rfl
@[simp] theorem drawn_lo : s.drawn.lo = s.lo := rfl
@[simp] theorem drawn_hi : s.drawn.hi = s.hi := rfl
@[simp] theorem drawn_fcode : s.drawn.fcode = s.fcode := rfl
@[simp] theorem drawn_trunc : s.drawn.trunc = s.trunc := rfl
@[simp] theorem drawn_fcmd : s.drawn.fcmd = s.fcmd := rfl
@[simp] theorem drawn_cnt : s.drawn.cnt = s.cnt := rfl
@[simp] theorem drawn_len : s.drawn.len = s.len := rfl
@[simp] theorem drawn_rlen : s.drawn.rlen = s.rlen := rfl
@[simp] theorem drawn_pos : s.drawn.pos = s.pos := rfl
@[simp] theorem drawn_mem : s.drawn.mem = s.mem := rfl
@[simp] theorem drawn_capBytes : s.drawn.capBytes = s.capBytes := rfl
@[simp] theorem drawn_pending : s.drawn.pending = s.pending := rfl
@[simp] theorem drawn_replies : s.drawn.replies = s.replies := rfl
@[simp] theorem drawn_freeDraws : s.drawn.freeDraws = s.freeDraws + 1 := rfl
@[simp] theorem drawn_capBits : s.drawn.capBits = s.capBits := rfl

@[simp] theorem withPending_val (ts : List Transaction) : (s.withPending ts).val = s.val := rfl
@[simp] theorem withPending_ofs (ts : List Transaction) : (s.withPending ts).ofs = s.ofs := rfl
@[simp] theorem withPending_lo (ts : List Transaction) : (s.withPending ts).lo = s.lo := rfl
@[simp] theorem withPending_hi (ts : List Transaction) : (s.withPending ts).hi = s.hi := rfl
@[simp] theorem withPending_fcode (ts : List Transaction) : (s.withPending ts).fcode = s.fcode := rfl
@[simp] theorem withPending_trunc (ts : List Transaction) : (s.withPending ts).trunc = s.trunc := rfl
@[simp] theorem withPending_fcmd (ts : List Transaction) : (s.withPending ts).fcmd = s.fcmd := rfl
@[simp] theorem withPending_cnt (ts : List Transaction) : (s.withPending ts).cnt = s.cnt := rfl
@[simp] theorem withPending_len (ts : List Transaction) : (s.withPending ts).len = s.len := rfl
@[simp] theorem withPending_rlen (ts : List Transaction) : (s.withPending ts).rlen = s.rlen := rfl
@[simp] theorem withPending_pos (ts : List Transaction) : (s.withPending ts).pos = s.pos := rfl
@[simp] theorem withPending_mem (ts : List Transaction) : (s.withPending ts).mem = s.mem := rfl
@[simp] theorem withPending_capBytes (ts : List Transaction) : (s.withPending ts).capBytes = s.capBytes := rfl
@[simp] theorem withPending_pending (ts : List Transaction) : (s.withPending ts).pending = ts := rfl
@[simp] theorem withPending_replies (ts : List Transaction) : (s.withPending ts).replies = s.replies := rfl
@[simp] theorem withPending_freeDraws (ts : List Transaction) : (s.withPending ts).freeDraws = s.freeDraws := rfl
@[simp] theorem withPending_capBits (ts : List Transaction) : (s.withPending ts).capBits = s.capBits := rfl

end

/-! The fields after hardware reset (R40, R210). -/

section

variable (cap : CapBytes) (m : List Host.Cell)

@[simp] theorem powerOn_val : (State.powerOn cap m).val = 0 := rfl
@[simp] theorem powerOn_ofs : (State.powerOn cap m).ofs = 0 := rfl
@[simp] theorem powerOn_lo : (State.powerOn cap m).lo = 0 := rfl
@[simp] theorem powerOn_hi : (State.powerOn cap m).hi = 0 := rfl
@[simp] theorem powerOn_fcode : (State.powerOn cap m).fcode = 0 := rfl
@[simp] theorem powerOn_trunc : (State.powerOn cap m).trunc = false := rfl
@[simp] theorem powerOn_fcmd : (State.powerOn cap m).fcmd = 0 := rfl
@[simp] theorem powerOn_cnt : (State.powerOn cap m).cnt = 0 := rfl
@[simp] theorem powerOn_len : (State.powerOn cap m).len = 0 := rfl
@[simp] theorem powerOn_rlen : (State.powerOn cap m).rlen = 0 := rfl
@[simp] theorem powerOn_pos : (State.powerOn cap m).pos = 0 := rfl
@[simp] theorem powerOn_mem : (State.powerOn cap m).mem = m := rfl
@[simp] theorem powerOn_capBytes : (State.powerOn cap m).capBytes = cap := rfl
@[simp] theorem powerOn_pending : (State.powerOn cap m).pending = [] := rfl
@[simp] theorem powerOn_replies : (State.powerOn cap m).replies = [] := rfl
@[simp] theorem powerOn_freeDraws : (State.powerOn cap m).freeDraws = 0 := rfl

end

end Sys2Proof.Machine
end

