-- ==== Sys2Proof/Laws/Ops.lean ====
section
/-! SUPPORT. One lemma per shared operation that says once everything it can do: which next state it answers, and
when.  The provers cite these instead of unfolding the operation. -/

namespace Sys2Proof.Machine

@[simp] theorem word32_toNat (n : Nat) : (word32 n).toNat = n % 2 ^ 32 := BitVec.toNat_ofNat ..

/-- `CAP_BITS` fits a 32-bit register (R6). -/
theorem capBits_lt (s : State) : s.capBits < 2 ^ 32 := by
  have := s.capBytes.isLt
  unfold State.capBits
  omega

/-- A position of at most `CAP_BITS` is stored whole. -/
theorem word32_toNat_of_le {s : State} {n : Nat} (h : n ≤ s.capBits) : (word32 n).toNat = n := by
  rw [word32_toNat, Nat.mod_eq_of_lt (h.trans_lt (capBits_lt s))]

variable {s t : State} {w : Word32} {body : Result}

/-- Fault entry (R186). -/
@[simp] theorem raise_eq_next {f : FaultClass} : raise f w s = .next t ↔ t = s.recordFault f w := by
  simp [raise, eq_comm]

theorem gated_of_zero (h : s.fcode = 0) : gated s body = body := if_pos h

theorem gated_of_ne (h : s.fcode ≠ 0) : gated s body = .next s := if_neg h

/-- The fault gate (R84). -/
theorem gated_eq_next :
    gated s body = .next t ↔ (s.fcode = 0 ∧ body = .next t) ∨ (s.fcode ≠ 0 ∧ t = s) := by
  by_cases h : s.fcode = 0
  · rw [gated_of_zero h]; exact ⟨fun hb => .inl ⟨h, hb⟩, fun hb => hb.elim And.right fun hb => absurd h hb.1⟩
  · rw [gated_of_ne h]
    exact ⟨fun hb => .inr ⟨h, by cases hb; rfl⟩, fun hb => hb.elim (fun hb => absurd hb.1 h) fun hb => hb.2 ▸ rfl⟩

/-- The bit-count test (R86). -/
theorem counted_eq_next {max : Nat} {n : BitVec 7} :
    counted max n w s body = .next t ↔
      (countInRange max n ∧ body = .next t) ∨ (¬countInRange max n ∧ t = s.recordFault .ovfNbits w) := by
  unfold counted
  by_cases h : countInRange max n
  · rw [if_pos h]; exact ⟨fun hb => .inl ⟨h, hb⟩, fun hb => hb.elim And.right fun hb => absurd h hb.1⟩
  · rw [if_neg h, raise_eq_next]
    exact ⟨fun hb => .inr ⟨h, hb⟩, fun hb => hb.elim (fun hb => absurd hb.1 h) And.right⟩

theorem counted_of_inRange {max : Nat} {n : BitVec 7} (h : countInRange max n) : counted max n w s body = body :=
  if_pos h

/-- The capacity test (R183). -/
theorem fits_eq_next {last : Nat} :
    fits last w s body = .next t ↔
      (last ≤ s.capBits ∧ body = .next t) ∨ (s.capBits < last ∧ t = s.recordFault .ovfCap w) := by
  unfold fits
  split
  · rename_i h; simp [h, Nat.not_le.mpr h]
  · rename_i h; simp [h, Nat.not_lt.mp h]

theorem fits_of_le {last : Nat} (h : last ≤ s.capBits) : fits last w s body = body := if_neg (Nat.not_lt.mpr h)

/-- The read-overflow test (R181). -/
theorem remaining_eq_next {need : Nat} :
    remaining need w s body = .next t ↔
      (s.pos.toNat + need ≤ s.rlen.toNat ∧ body = .next t) ∨
      (s.rlen.toNat < s.pos.toNat + need ∧ t = s.recordFault .ovfRead w) := by
  unfold remaining
  split
  · rename_i h; simp [h, Nat.not_le.mpr h]
  · rename_i h; simp [h, Nat.not_lt.mp h]

theorem remaining_of_le {need : Nat} (h : s.pos.toNat + need ≤ s.rlen.toNat) : remaining need w s body = body :=
  if_neg (Nat.not_lt.mpr h)

/-- Storing a field (R54, R58). -/
theorem storeField_eq_next {off n v len : Nat} :
    storeField s off n v len = .next t ↔
      off + n ≤ s.capBits ∧ t = s.written (putField s.mem off n v) len n := by
  unfold storeField putBits
  by_cases h : off + n ≤ s.capBits <;> simp [h, eq_comm]

/-- Appending a field (R121, R125, R171). -/
theorem appendField_eq_next {n v : Nat} :
    appendField s n v w = .next t ↔
      (s.len.toNat + n ≤ s.capBits ∧ t = s.written (putField s.mem s.len.toNat n v) (s.len.toNat + n) n) ∨
      (s.capBits < s.len.toNat + n ∧ t = s.recordFault .ovfCap w) := by
  unfold appendField
  rw [fits_eq_next, storeField_eq_next]
  tauto

/-- Fetching a field (R123, R124). -/
theorem fetchField_eq_next {n : Nat} {k : Nat → Result} :
    fetchField s n w k = .next t ↔
      (s.pos.toNat + n ≤ s.rlen.toNat ∧ s.pos.toNat + n ≤ s.capBits ∧ k (fieldAt s.mem s.pos.toNat n) = .next t) ∨
      (s.rlen.toNat < s.pos.toNat + n ∧ t = s.recordFault .ovfRead w) := by
  unfold fetchField
  rw [remaining_eq_next]
  unfold getBits
  by_cases h : s.pos.toNat + n ≤ s.capBits <;> simp [h]

/-! ## Varints -/

@[simp] theorem varBytes_length (v : Nat) : (varBytes v).length = varCount v := by simp [varBytes]

theorem varByte_lt (v k j : Nat) : varByte v k j < 256 := by
  have h1 : (v >>> (7 * j)) % 128 < 2 ^ 8 := (Nat.mod_lt _ (by decide)).trans (by decide)
  have h2 : (if j < k - 1 then 0x80 else 0) < 2 ^ 8 := by split <;> decide
  exact Nat.or_lt_two_pow h1 h2

theorem varBytes_lt (v : Nat) : ∀ b ∈ varBytes v, b < 256 := by
  intro b hb
  obtain ⟨j, -, rfl⟩ := List.mem_map.mp hb
  exact varByte_lt v _ j

theorem varBytes_getD {v j : Nat} (hj : j < varCount v) : (varBytes v).getD j 0 = varByte v (varCount v) j := by
  rw [List.getD_eq_getElem _ _ (by simpa using hj)]
  simp [varBytes]

/-- Encoding a varint (R142). -/
theorem varEnc_eq_next {v : Nat} :
    varEnc v w s = .next t ↔
      (s.len.toNat + 8 * varCount v ≤ s.capBits ∧
        t = s.written (putFields s.mem s.len.toNat (varBytes v)) (s.len.toNat + 8 * varCount v) (8 * varCount v)) ∨
      (s.capBits < s.len.toNat + 8 * varCount v ∧ t = s.recordFault .ovfCap w) := by
  unfold varEnc
  rw [fits_eq_next]
  refine or_congr (and_congr_right fun h => ?_) Iff.rfl
  rw [putBytes_of_le (by simpa using h)]
  simp [eq_comm]

/-- Decoding a varint (R147). -/
theorem varDec_eq_next {W : Nat} {k : Nat → Nat → Bool → Result} :
    varDec W s k = .next t ↔
      ∃ acc p tr, varDecLoop W s.capBits s.mem ((s.rlen.toNat - s.pos.toNat) / 8) s.pos.toNat 0 0 = some (acc, p, tr) ∧
        k acc p tr = .next t := by
  unfold varDec
  split
  · rename_i acc p tr h
    constructor
    · intro hk; exact ⟨acc, p, tr, h, hk⟩
    · rintro ⟨acc', p', tr', h', hk⟩
      rw [h] at h'
      cases h'
      exact hk
  · rename_i h
    simp [h]

/-- Where the decode loop ends: after at most the whole bytes there were, each taken whole (R147, R148). -/
theorem varDecLoop_end {W capBits : Nat} {m : List Host.Cell} {avail p j acc acc' q : Nat} {tr : Bool}
    (h : varDecLoop W capBits m avail p j acc = some (acc', q, tr)) :
    p ≤ q ∧ q ≤ p + 8 * avail ∧ (q - p) % 8 = 0 := by
  induction avail generalizing p j acc with
  | zero => rw [varDecLoop] at h; cases h; omega
  | succ avail ih =>
    rw [varDecLoop] at h
    split at h
    · cases h
    · split at h
      · cases h; omega
      · have := ih h; omega

/-- The decode loop answers wherever its bytes lie in memory (R59: the engine never reads outside `MEM`). -/
theorem varDecLoop_isSome {W capBits : Nat} {m : List Host.Cell} {avail p j acc : Nat}
    (h : p + 8 * avail ≤ capBits) : ∃ r, varDecLoop W capBits m avail p j acc = some r := by
  induction avail generalizing p j acc with
  | zero => exact ⟨_, rfl⟩
  | succ avail ih =>
    rw [varDecLoop, getBits_of_le (by omega)]
    simp only
    split
    · exact ⟨_, rfl⟩
    · exact ih (by omega)

end Sys2Proof.Machine
end

