-- ==== Sys2Proof/Laws/Codec.lean ====
section
/-! SUPPORT. Facts on the codings: `bitlen` and `ceil8` (R8), the fields of an encoded word (R80, R81), the value a
run of varint bytes decodes to (R147, R157). -/

namespace Sys2Proof.Machine

/-! ## `bitlen`, `ceil8` -/

theorem lt_two_pow_bitlen (v : Nat) : v < 2 ^ bitlen v := by
  unfold bitlen
  split
  · rename_i h; simp [h]
  · exact Nat.lt_log2_self

theorem two_pow_le_of_lt_bitlen {v c : Nat} (h : c < bitlen v) : 2 ^ c ≤ v := by
  unfold bitlen at h
  split at h
  · omega
  · rename_i h0
    exact (Nat.pow_le_pow_right (by decide) (by omega)).trans (Nat.log2_self_le h0)

/-- `bitlen` is the least width that holds the value (R8), and the only one that is. -/
theorem isBitlen_iff {v b : Nat} : isBitlen v b ↔ b = bitlen v := by
  constructor
  · rintro ⟨h1, h2⟩
    rcases Nat.lt_trichotomy b (bitlen v) with h | h | h
    · exact absurd (two_pow_le_of_lt_bitlen h) (by omega)
    · exact h
    · exact absurd (h2 _ h) (by have := lt_two_pow_bitlen v; omega)
  · rintro rfl
    exact ⟨lt_two_pow_bitlen v, fun c hc => two_pow_le_of_lt_bitlen hc⟩

theorem bitlen_le_iff {v b : Nat} : bitlen v ≤ b ↔ v < 2 ^ b := by
  constructor
  · intro h
    exact (lt_two_pow_bitlen v).trans_le (Nat.pow_le_pow_right (by decide) h)
  · intro h
    by_contra hc
    exact absurd (two_pow_le_of_lt_bitlen (Nat.not_le.mp hc)) (by omega)

theorem add_padBits (n : Nat) : n + padBits n = ceil8 n := by unfold padBits ceil8; omega

theorem ceil8_le_capBits {s : State} {n : Nat} (h : n ≤ s.capBits) : ceil8 n ≤ s.capBits := by
  unfold ceil8 State.capBits at *; omega

/-! ## The fields of a word -/

theorem opcodeOf_lt (i : Instr) : opcodeOf i < 256 := by cases i <;> simp [opcodeOf]

theorem countOf_lt (i : Instr) : countOf i < 128 := by
  unfold countOf
  split
  · decide
  · exact BitVec.isLt _

theorem encode_toNat (i : Instr) : (encode i).toNat = opcodeOf i + 256 * countOf i := by
  have := opcodeOf_lt i
  have := countOf_lt i
  rw [encode, BitVec.toNat_ofNat]
  omega

theorem fieldOpc_eq (w : Word32) : fieldOpc w = wordOpc w := by
  simp [fieldOpc, wordOpc, BitVec.extractLsb'_toNat]

theorem fieldN_toNat (w : Word32) : (fieldN w).toNat = wordN w := by
  simp [fieldN, wordN, BitVec.extractLsb'_toNat, Nat.shiftRight_eq_div_pow]

theorem fieldRsv_toNat (w : Word32) : (fieldRsv w).toNat = wordRsv w := by
  have := w.isLt
  simp only [fieldRsv, wordRsv, BitVec.extractLsb'_toNat, Nat.shiftRight_eq_div_pow]
  omega

/-! ## The value of a run of varint bytes -/

theorem varGroups_lt (m : List Host.Cell) (p k : Nat) : varGroups m p k < 2 ^ (7 * k) := by
  induction k with
  | zero => simp [varGroups]
  | succ k ih =>
    have hg := Nat.mod_lt (fieldAt m (p + 8 * k) 8) (show 128 > 0 by decide)
    calc varGroups m p k + fieldAt m (p + 8 * k) 8 % 128 * 2 ^ (7 * k)
        < 2 ^ (7 * k) + 127 * 2 ^ (7 * k) := Nat.add_lt_add_of_lt_of_le ih (Nat.mul_le_mul_right _ (by omega))
      _ = 2 ^ (7 * (k + 1)) := by rw [Nat.mul_add, Nat.pow_add]; omega

/-- One turn of the decode loop adds one group (R147); a group at or beyond the width adds only the bits within it
(R157). -/
theorem varGroups_step (m : List Host.Cell) (p k W : Nat) :
    (varGroups m p k % 2 ^ W ||| (fieldAt m (p + 8 * k) 8 % 128) <<< (7 * k)) % 2 ^ W =
      varGroups m p (k + 1) % 2 ^ W := by
  have hor : varGroups m p (k + 1) = varGroups m p k ||| (fieldAt m (p + 8 * k) 8 % 128) <<< (7 * k) := by
    rw [varGroups, Nat.or_comm, Nat.shiftLeft_eq, Nat.mul_comm, ← Nat.two_pow_add_eq_or_of_lt (varGroups_lt m p k),
      Nat.add_comm]
  rw [hor]
  refine Nat.eq_of_testBit_eq fun i => ?_
  simp only [Nat.testBit_mod_two_pow, Nat.testBit_or]
  by_cases hi : i < W <;> simp [hi]

/-- The decode loop after `j` bytes, on a varint whose last byte is byte `k` (R147). -/
theorem varDecLoop_terminated {W capBits : Nat} {m : List Host.Cell} {p k : Nat} (avail j : Nat) (hjk : j ≤ k)
    (hk : k < j + avail) (hcap : p + 8 * (k + 1) ≤ capBits) (hc : varContinues m p k)
    (ht : fieldAt m (p + 8 * k) 8 < 128) :
    varDecLoop W capBits m avail (p + 8 * j) j (varGroups m p j % 2 ^ W) =
      some (varGroups m p (k + 1) % 2 ^ W, p + 8 * (k + 1), false) := by
  induction avail generalizing j with
  | zero => omega
  | succ avail ih =>
    rw [varDecLoop, getBits_of_le (by omega)]
    simp only [varGroups_step]
    by_cases hj : j = k
    · subst hj
      rw [if_pos ht, Nat.mul_add, Nat.add_assoc]
    · have := hc j (by omega)
      rw [if_neg (by omega)]
      exact ih (j + 1) (by omega) (by omega)

/-- The decode loop after `j` bytes, when all the bytes left have the continuation bit (R147). -/
theorem varDecLoop_truncated {W capBits : Nat} {m : List Host.Cell} {p : Nat} (avail j : Nat)
    (hcap : p + 8 * (j + avail) ≤ capBits) (hc : varContinues m p (j + avail)) :
    varDecLoop W capBits m avail (p + 8 * j) j (varGroups m p j % 2 ^ W) =
      some (varGroups m p (j + avail) % 2 ^ W, p + 8 * (j + avail), true) := by
  induction avail generalizing j with
  | zero => rfl
  | succ avail ih =>
    have := hc j (by omega)
    rw [varDecLoop, getBits_of_le (by omega)]
    simp only [varGroups_step]
    rw [if_neg (by omega), show j + (avail + 1) = j + 1 + avail by omega]
    exact ih (j + 1) (by omega) (by rwa [show j + 1 + avail = j + (avail + 1) by omega])

end Sys2Proof.Machine
end

