-- ==== Sys2Proof/Laws/Exec.lean ====
section
/-! SUPPORT. Once for all what a command can do: `exec_next` says that a next state is the gate's, a fault's or the
command's own effect, and `Effect` says what that effect is.  Invariants and frames are derived from it without
unfolding a meaning again. -/

namespace Sys2Proof.Machine

/-- A varint read ends at `p` with `acc` and `tr` (R147). -/
abbrev decodesTo (W : Nat) (s : State) (acc p : Nat) (tr : Bool) : Prop :=
  varDecLoop W s.capBits s.mem ((s.rlen.toNat - s.pos.toNat) / 8) s.pos.toNat 0 0 = some (acc, p, tr)

/-- A varint write of `v` reaches `t` (R142). -/
abbrev encodesTo (s t : State) (v : Nat) : Prop :=
  s.len.toNat + 8 * varCount v ≤ s.capBits ∧
    t = s.written (putFields s.mem s.len.toNat (varBytes v)) (s.len.toNat + 8 * varCount v) (8 * varCount v)

/-- A field of `n` bits can be read (R123). -/
abbrev readable (s : State) (n : Nat) : Prop := s.pos.toNat + n ≤ s.rlen.toNat ∧ s.pos.toNat + n ≤ s.capBits

/-- The state a command reaches when no test of its rule fails. -/
def Effect : Instr → State → State → Prop
  | .srst, s, t => t = s.softReset
  | .wnew, s, t => t = s.created
  | .wimp, s, t => 8 * s.ofs.toNat ≤ s.capBits ∧ t = s.setLen (8 * s.ofs.toNat)
  | .ropen, s, t => t = s.openReader s.len.toNat
  | .ropenb, s, t => t = s.openReader (ceil8 s.len.toNat)
  | .rseek, s, t => s.ofs.toNat ≤ s.rlen.toNat ∧ t = s.seek
  | .padb, s, t => t = s.padded (padBits s.len.toNat)
  | .pad n, s, t => countInRange 64 n ∧ s.len.toNat + n.toNat ≤ s.capBits ∧ t = s.padded n.toNat
  | .rpadb, s, t => s.pos.toNat + padBits s.pos.toNat ≤ s.rlen.toNat ∧ t = s.skipped (padBits s.pos.toNat)
  | .rskip n, s, t => countInRange 64 n ∧ s.pos.toNat + n.toNat ≤ s.rlen.toNat ∧ t = s.skipped n.toNat
  | .wru n, s, t => countInRange 64 n ∧ s.len.toNat + n.toNat ≤ s.capBits ∧
      t = s.written (putField s.mem s.len.toNat n.toNat (lowBits s.val n.toNat)) (s.len.toNat + n.toNat) n.toNat
  | .wruat n, s, t => countInRange 64 n ∧ s.ofs.toNat + n.toNat ≤ s.capBits ∧
      t = s.written (putField s.mem s.ofs.toNat n.toNat (lowBits s.val n.toNat))
        (max s.len.toNat (s.ofs.toNat + n.toNat)) n.toNat
  | .rdu n, s, t => countInRange 64 n ∧ readable s n.toNat ∧
      t = s.consumed (BitVec.ofNat 64 (fieldAt s.mem s.pos.toNat n.toNat)) n.toNat
  | .pku n, s, t => countInRange 64 n ∧ readable s n.toNat ∧
      t = s.peeked (BitVec.ofNat 64 (fieldAt s.mem s.pos.toNat n.toNat)) n.toNat
  | .wrs n, s, t => countInRange 32 n ∧ s.len.toNat + n.toNat ≤ s.capBits ∧
      t = s.written (putField s.mem s.len.toNat n.toNat (sEnc n.toNat (low32 s.val))) (s.len.toNat + n.toNat) n.toNat
  | .rds n, s, t => countInRange 32 n ∧ readable s n.toNat ∧
      t = s.consumed (BitVec.ofInt 64 (sDec n.toNat (fieldAt s.mem s.pos.toNat n.toNat))) n.toNat
  | .pks n, s, t => countInRange 32 n ∧ readable s n.toNat ∧
      t = s.peeked (BitVec.ofInt 64 (sDec n.toNat (fieldAt s.mem s.pos.toNat n.toNat))) n.toNat
  | .wvu32, s, t => encodesTo s t (low32 s.val).toNat
  | .wvu64, s, t => encodesTo s t s.val.toNat
  | .wvs32, s, t => encodesTo s t (zigzag (low32 s.val)).toNat
  | .wvs64, s, t => encodesTo s t (zigzag s.val).toNat
  | .rvu32, s, t => ∃ acc p tr, decodesTo 32 s acc p tr ∧ t = s.consumedVar (BitVec.ofNat 64 acc) p tr
  | .rvu64, s, t => ∃ acc p tr, decodesTo 64 s acc p tr ∧ t = s.consumedVar (BitVec.ofNat 64 acc) p tr
  | .rvs32, s, t => ∃ acc p tr, decodesTo 32 s acc p tr ∧ t = s.consumedVar (unzigzag32 acc) p tr
  | .rvs64, s, t => ∃ acc p tr, decodesTo 64 s acc p tr ∧ t = s.consumedVar (unzigzag64 acc) p tr
  | .pvu32, s, t => ∃ acc p tr, decodesTo 32 s acc p tr ∧ t = s.peekedVar (BitVec.ofNat 64 acc) p tr
  | .pvu64, s, t => ∃ acc p tr, decodesTo 64 s acc p tr ∧ t = s.peekedVar (BitVec.ofNat 64 acc) p tr
  | .pvs32, s, t => ∃ acc p tr, decodesTo 32 s acc p tr ∧ t = s.peekedVar (unzigzag32 acc) p tr
  | .pvs64, s, t => ∃ acc p tr, decodesTo 64 s acc p tr ∧ t = s.peekedVar (unzigzag64 acc) p tr
  | .wrr, s, t => inRange s.lo s.val s.hi ∧ s.len.toNat + rangedBits s.lo s.hi ≤ s.capBits ∧
      t = s.written (putField s.mem s.len.toNat (rangedBits s.lo s.hi) (span s.lo s.val))
        (s.len.toNat + rangedBits s.lo s.hi) (rangedBits s.lo s.hi)
  | .rdr, s, t => s.lo.toInt ≤ s.hi.toInt ∧ readable s (rangedBits s.lo s.hi) ∧
      t = s.consumed (s.lo + BitVec.ofNat 64 (fieldAt s.mem s.pos.toNat (rangedBits s.lo s.hi))) (rangedBits s.lo s.hi)
  | .pkr, s, t => s.lo.toInt ≤ s.hi.toInt ∧ readable s (rangedBits s.lo s.hi) ∧
      t = s.peeked (s.lo + BitVec.ofNat 64 (fieldAt s.mem s.pos.toNat (rangedBits s.lo s.hi))) (rangedBits s.lo s.hi)

variable {s t : State}

/-- What a command can do: nothing (the gate), record a fault, or its effect. -/
theorem exec_next {i : Instr} (h : exec i s = .next t) :
    (i ≠ .srst ∧ s.fcode ≠ 0 ∧ t = s) ∨ (s.fcode = 0 ∧ ∃ f, t = s.recordFault f (encode i)) ∨
      ((i = .srst ∨ s.fcode = 0) ∧ Effect i s t) := by
  cases i with
  | srst => cases h; exact .inr (.inr ⟨.inl rfl, rfl⟩)
  | _ =>
    refine (gated_eq_next.mp h).elim (fun ⟨h0, h⟩ => .inr ?_) (fun ⟨h0, h⟩ => .inl ⟨nofun, h0, h⟩)
    clear * - h0 h
    simp only [reduceCtorEq, false_or, h0, true_and, Effect]
    first
      | (have h' := varDec_eq_next.mp h
         obtain ⟨acc, p, tr, hd, ht⟩ := h'
         cases ht
         exact .inr ⟨acc, p, tr, hd, rfl⟩)
      | (cases h; exact .inr rfl)
      | (simp only [counted_eq_next, fits_eq_next, remaining_eq_next, appendField_eq_next, fetchField_eq_next,
           varEnc_eq_next, storeField_eq_next, Host.Outcome.next.injEq] at h
         grind)
      | (split at h <;>
           simp only [raise_eq_next, appendField_eq_next, fetchField_eq_next, Host.Outcome.next.injEq] at h <;> grind)

/-- A command whose tests all pass reaches its effect. -/
theorem exec_of_effect {i : Instr} (h0 : i = .srst ∨ s.fcode = 0) (h : Effect i s t) : exec i s = .next t := by
  cases i with
  | srst => cases h; rfl
  | _ =>
    simp only [reduceCtorEq, false_or] at h0
    refine gated_eq_next.mpr (.inl ⟨h0, ?_⟩)
    simp only [Effect] at h
    first
      | (obtain ⟨acc, p, tr, hd, rfl⟩ := h
         exact varDec_eq_next.mpr ⟨acc, p, tr, hd, rfl⟩)
      | (cases h; rfl)
      | (simp only [counted_eq_next, fits_eq_next, remaining_eq_next, appendField_eq_next, fetchField_eq_next,
           varEnc_eq_next, storeField_eq_next, Host.Outcome.next.injEq]
         grind)
      | (split <;>
           simp only [raise_eq_next, appendField_eq_next, fetchField_eq_next, Host.Outcome.next.injEq] <;> grind)

end Sys2Proof.Machine
end

