-- ==== Sys2Proof/Laws/PerInstr.lean ====
section
/-! SUPPORT. The family `MatchesTable`: a command's word carries its row's bits of spec/opcode_table.json, with the
mask and match of its format (R81).  One lemma per constructor. -/

namespace Sys2Proof.Laws

open Sys2Proof Sys2Proof.Machine

/-- The fixed bits of a command's row in spec/opcode_table.json: its mask (R81) and its match, the opcode (R83). -/
def tableRow : Instr → Word32 × Word32
  | .srst => (0xFFFFFFFF, 0x00000001)
  | .wnew => (0xFFFFFFFF, 0x00000002)
  | .wimp => (0xFFFFFFFF, 0x00000003)
  | .ropen => (0xFFFFFFFF, 0x00000004)
  | .ropenb => (0xFFFFFFFF, 0x00000005)
  | .rseek => (0xFFFFFFFF, 0x00000006)
  | .padb => (0xFFFFFFFF, 0x00000008)
  | .pad _ => (0xFFFF80FF, 0x00000009)
  | .rpadb => (0xFFFFFFFF, 0x0000000A)
  | .rskip _ => (0xFFFF80FF, 0x0000000B)
  | .wru _ => (0xFFFF80FF, 0x00000010)
  | .wruat _ => (0xFFFF80FF, 0x00000011)
  | .rdu _ => (0xFFFF80FF, 0x00000012)
  | .pku _ => (0xFFFF80FF, 0x00000013)
  | .wrs _ => (0xFFFF80FF, 0x00000014)
  | .rds _ => (0xFFFF80FF, 0x00000016)
  | .pks _ => (0xFFFF80FF, 0x00000017)
  | .wvu32 => (0xFFFFFFFF, 0x00000020)
  | .wvu64 => (0xFFFFFFFF, 0x00000021)
  | .wvs32 => (0xFFFFFFFF, 0x00000022)
  | .wvs64 => (0xFFFFFFFF, 0x00000023)
  | .rvu32 => (0xFFFFFFFF, 0x00000024)
  | .rvu64 => (0xFFFFFFFF, 0x00000025)
  | .rvs32 => (0xFFFFFFFF, 0x00000026)
  | .rvs64 => (0xFFFFFFFF, 0x00000027)
  | .pvu32 => (0xFFFFFFFF, 0x00000028)
  | .pvu64 => (0xFFFFFFFF, 0x00000029)
  | .pvs32 => (0xFFFFFFFF, 0x0000002A)
  | .pvs64 => (0xFFFFFFFF, 0x0000002B)
  | .wrr => (0xFFFFFFFF, 0x00000030)
  | .rdr => (0xFFFFFFFF, 0x00000031)
  | .pkr => (0xFFFFFFFF, 0x00000032)

/-- The word of a command has its row's fixed bits (R81, R83). -/
def MatchesTable.Statement (i : Instr) : Prop := encode i &&& (tableRow i).1 = (tableRow i).2

theorem MatchesTable.srst : MatchesTable.Statement .srst := by unfold MatchesTable.Statement; decide

theorem MatchesTable.wnew : MatchesTable.Statement .wnew := by unfold MatchesTable.Statement; decide

theorem MatchesTable.wimp : MatchesTable.Statement .wimp := by unfold MatchesTable.Statement; decide

theorem MatchesTable.ropen : MatchesTable.Statement .ropen := by unfold MatchesTable.Statement; decide

theorem MatchesTable.ropenb : MatchesTable.Statement .ropenb := by unfold MatchesTable.Statement; decide

theorem MatchesTable.rseek : MatchesTable.Statement .rseek := by unfold MatchesTable.Statement; decide

theorem MatchesTable.padb : MatchesTable.Statement .padb := by unfold MatchesTable.Statement; decide

theorem MatchesTable.pad (n : BitVec 7) : MatchesTable.Statement (.pad n) := by
  unfold MatchesTable.Statement; revert n; decide +kernel

theorem MatchesTable.rpadb : MatchesTable.Statement .rpadb := by unfold MatchesTable.Statement; decide

theorem MatchesTable.rskip (n : BitVec 7) : MatchesTable.Statement (.rskip n) := by
  unfold MatchesTable.Statement; revert n; decide +kernel

theorem MatchesTable.wru (n : BitVec 7) : MatchesTable.Statement (.wru n) := by
  unfold MatchesTable.Statement; revert n; decide +kernel

theorem MatchesTable.wruat (n : BitVec 7) : MatchesTable.Statement (.wruat n) := by
  unfold MatchesTable.Statement; revert n; decide +kernel

theorem MatchesTable.rdu (n : BitVec 7) : MatchesTable.Statement (.rdu n) := by
  unfold MatchesTable.Statement; revert n; decide +kernel

theorem MatchesTable.pku (n : BitVec 7) : MatchesTable.Statement (.pku n) := by
  unfold MatchesTable.Statement; revert n; decide +kernel

theorem MatchesTable.wrs (n : BitVec 7) : MatchesTable.Statement (.wrs n) := by
  unfold MatchesTable.Statement; revert n; decide +kernel

theorem MatchesTable.rds (n : BitVec 7) : MatchesTable.Statement (.rds n) := by
  unfold MatchesTable.Statement; revert n; decide +kernel

theorem MatchesTable.pks (n : BitVec 7) : MatchesTable.Statement (.pks n) := by
  unfold MatchesTable.Statement; revert n; decide +kernel

theorem MatchesTable.wvu32 : MatchesTable.Statement .wvu32 := by unfold MatchesTable.Statement; decide

theorem MatchesTable.wvu64 : MatchesTable.Statement .wvu64 := by unfold MatchesTable.Statement; decide

theorem MatchesTable.wvs32 : MatchesTable.Statement .wvs32 := by unfold MatchesTable.Statement; decide

theorem MatchesTable.wvs64 : MatchesTable.Statement .wvs64 := by unfold MatchesTable.Statement; decide

theorem MatchesTable.rvu32 : MatchesTable.Statement .rvu32 := by unfold MatchesTable.Statement; decide

theorem MatchesTable.rvu64 : MatchesTable.Statement .rvu64 := by unfold MatchesTable.Statement; decide

theorem MatchesTable.rvs32 : MatchesTable.Statement .rvs32 := by unfold MatchesTable.Statement; decide

theorem MatchesTable.rvs64 : MatchesTable.Statement .rvs64 := by unfold MatchesTable.Statement; decide

theorem MatchesTable.pvu32 : MatchesTable.Statement .pvu32 := by unfold MatchesTable.Statement; decide

theorem MatchesTable.pvu64 : MatchesTable.Statement .pvu64 := by unfold MatchesTable.Statement; decide

theorem MatchesTable.pvs32 : MatchesTable.Statement .pvs32 := by unfold MatchesTable.Statement; decide

theorem MatchesTable.pvs64 : MatchesTable.Statement .pvs64 := by unfold MatchesTable.Statement; decide

theorem MatchesTable.wrr : MatchesTable.Statement .wrr := by unfold MatchesTable.Statement; decide

theorem MatchesTable.rdr : MatchesTable.Statement .rdr := by unfold MatchesTable.Statement; decide

theorem MatchesTable.pkr : MatchesTable.Statement .pkr := by unfold MatchesTable.Statement; decide

end Sys2Proof.Laws
end

