-- ==== Sys2Proof/Tests/Slice0.lean ====
section
/-! SUPPORT. Tests on fixed values.  Words and expected results come from the spec's rules and 95_test_vectors.md,
named in each docstring.  The second half gives, for each statement with hypotheses, values that meet them. -/

namespace Sys2Proof.Tests

open Sys2Proof Sys2Proof.Machine

/-- An engine of 16 bytes with the given memory, `LEN`, `RLEN` and `POS`; every other register 0. -/
def start (mem : List Host.Cell) (len rlen pos : Word32) : State :=
  { State.powerOn Config.vectorCapBytes mem with len := len, rlen := rlen, pos := pos }

/-- The bytes `bs` from `MEM[0]` up, as the memory lists them. -/
def listed (bs : List Byte) : List Host.Cell :=
  (bs.zipIdx.map fun c => (c.2, c.1)).filter fun c => c.2 ≠ unlistedByte

/-- The first `k` bytes of `MEM`. -/
def firstBytes (k : Nat) (s : State) : List Byte := (List.range k).map (readByte s.mem)

/-- What `view` sees of the state a command or a step answers; `none` at a stop. -/
def seen {α : Type} (view : State → α) : Result → Option α
  | .next t => some (view t)
  | .fault _ => none
  | .refused _ => none

/-- `FCODE` and `FCMD`. -/
def record (s : State) : BitVec 4 × Word32 := (s.fcode, s.fcmd)

/-! ## Decoding: words written out from R80, R81 and R83 (`RSV`, `N`, `OPC`) -/

theorem test_decode_buffer :
    decode 0x00000001 = .ok .srst ∧ decode 0x00000002 = .ok .wnew ∧ decode 0x00000003 = .ok .wimp ∧
    decode 0x00000004 = .ok .ropen ∧ decode 0x00000005 = .ok .ropenb ∧ decode 0x00000006 = .ok .rseek ∧
    decode 0x00000008 = .ok .padb ∧ decode 0x0000000A = .ok .rpadb ∧
    decode (0#17 ++ 5#7 ++ 0x09#8) = .ok (.pad 5) ∧ decode (0#17 ++ 5#7 ++ 0x0B#8) = .ok (.rskip 5) := by decide

theorem test_decode_fixed :
    decode (0#17 ++ 13#7 ++ 0x10#8) = .ok (.wru 13) ∧ decode 0x00000611 = .ok (.wruat 6) ∧
    decode 0x00004012 = .ok (.rdu 64) ∧ decode 0x00000413 = .ok (.pku 4) ∧ decode 0x00002014 = .ok (.wrs 32) ∧
    decode 0x00000C16 = .ok (.rds 12) ∧ decode 0x00000417 = .ok (.pks 4) := by decide

theorem test_decode_varint :
    decode (0#17 ++ 0#7 ++ 0x20#8) = .ok .wvu32 ∧ decode 0x00000021 = .ok .wvu64 ∧ decode 0x00000022 = .ok .wvs32 ∧
    decode 0x00000023 = .ok .wvs64 ∧ decode 0x00000024 = .ok .rvu32 ∧ decode 0x00000025 = .ok .rvu64 ∧
    decode 0x00000026 = .ok .rvs32 ∧ decode 0x00000027 = .ok .rvs64 ∧ decode 0x00000028 = .ok .pvu32 ∧
    decode 0x00000029 = .ok .pvu64 ∧ decode 0x0000002A = .ok .pvs32 ∧ decode 0x0000002B = .ok .pvs64 := by decide

theorem test_decode_ranged :
    decode (0#17 ++ 0#7 ++ 0x30#8) = .ok .wrr ∧ decode 0x00000031 = .ok .rdr ∧ decode 0x00000032 = .ok .pkr := by
  decide

/-- R85, R88 and section 2.7. -/
theorem test_decode_refuses :
    decode 0x00000000 = .error .unassignedOpcode ∧ decode 0x00000007 = .error .unassignedOpcode ∧
    decode 0x00000015 = .error .unassignedOpcode ∧ decode 0x00000033 = .error .unassignedOpcode ∧
    decode 0xFFFFFFFF = .error .reservedBits ∧ decode 0x00008010 = .error .reservedBits ∧
    decode 0x00010001 = .error .reservedBits ∧ decode 0x00000101 = .error .countInF0 ∧
    decode 0x00000720 = .error .countInF0 := by decide

/-- The host's two questions, on the word `WRU 13`. -/
theorem test_table_word :
    decodeTableWord 32 0x00000D10 = some (.wru 13) ∧ decodeTableWord 32 0x00008010 = none ∧
    seen (fun t => (t.len, t.cnt, t.pending)) (step (State.reset.withFetchWord 32 0x00000D10)) =
      some (13, 13, []) := by decide

/-! ## Well-formedness: each check refuses an ill-formed command (R86, section 2.7) -/

theorem test_wellFormed_refuses :
    Instr.wellFormed (.wru 0) = false ∧ Instr.wellFormed (.wru 65) = false ∧ Instr.wellFormed (.wruat 0) = false ∧
    Instr.wellFormed (.rdu 0) = false ∧ Instr.wellFormed (.pku 127) = false ∧ Instr.wellFormed (.pad 0) = false ∧
    Instr.wellFormed (.rskip 65) = false ∧ Instr.wellFormed (.wrs 33) = false ∧ Instr.wellFormed (.wrs 0) = false ∧
    Instr.wellFormed (.rds 33) = false ∧ Instr.wellFormed (.pks 64) = false := by decide

theorem test_wellFormed_accepts :
    Instr.wellFormed (.wru 64) = true ∧ Instr.wellFormed (.wrs 32) = true ∧ Instr.wellFormed (.pad 1) = true ∧
    Instr.wellFormed .srst = true := by decide

/-! ## The commands, one step each -/

/-- Section 2.1, the row of `SRST`. -/
theorem test_srst :
    seen id
      (exec .srst { start [(0, 0x9F)] 24 24 24 with fcode := 1, fcmd := 0x112, val := 9, trunc := true, cnt := 8 }) =
      some (start [(0, 0x9F)] 0 0 0) := by decide

/-- Section 2.1, the row of `WNEW`; R101. -/
theorem test_wnew :
    seen id (exec .wnew { start (listed [0x9F, 0x57]) 13 8 2 with val := 5, cnt := 3 }) =
      some { start [] 0 8 2 with val := 5, cnt := 3 } := by decide

/-- R102. -/
theorem test_wimp : seen State.len (exec .wimp { start [] 0 0 0 with ofs := 3 }) = some 24 := by decide

/-- Section 2.1: `2^32` bits, no wrap to 0. -/
theorem test_wimp_no_wrap :
    seen record (exec .wimp { start [] 0 0 0 with ofs := 0x20000000 }) = some (3, 0x00000003) := by decide

/-- R103, R104. -/
theorem test_ropen : seen (fun t => (t.rlen, t.pos)) (exec .ropen (start [] 31 0 0)) = some (31, 0) := by decide

theorem test_ropenb : seen (fun t => (t.rlen, t.pos)) (exec .ropenb (start [] 31 8 5)) = some (32, 0) := by decide

/-- R105. -/
theorem test_rseek : seen State.pos (exec .rseek { start [] 40 40 32 with ofs := 8 }) = some 8 := by decide

theorem test_rseek_past_end :
    seen record (exec .rseek { start [] 40 40 32 with ofs := 41 }) = some (1, 0x00000006) := by decide

/-- R106; section 2.1. -/
theorem test_padb : seen (fun t => (t.len, t.cnt)) (exec .padb (start [] 13 0 0)) = some (16, 3) := by decide

theorem test_padb_aligned : seen (fun t => (t.len, t.cnt)) (exec .padb (start [] 16 0 0)) = some (16, 0) := by decide

/-- R107; section 2.1. -/
theorem test_pad : seen (fun t => (t.len, t.cnt)) (exec (.pad 5) (start [] 3 0 0)) = some (8, 5) := by decide

theorem test_pad_full : seen record (exec (.pad 1) (start [] 128 0 0)) = some (3, 0x00000109) := by decide

/-- R108. -/
theorem test_rpadb : seen (fun t => (t.pos, t.cnt)) (exec .rpadb (start [] 16 16 13)) = some (16, 3) := by decide

theorem test_rpadb_short : seen record (exec .rpadb (start [] 15 15 13)) = some (1, 0x0000000A) := by decide

/-- R109; section 2.1. -/
theorem test_rskip : seen (fun t => (t.pos, t.cnt)) (exec (.rskip 5) (start [] 31 31 0)) = some (5, 5) := by decide

theorem test_rskip_short : seen record (exec (.rskip 1) (start [] 21 21 21)) = some (1, 0x0000010B) := by decide

/-- S3, the second row. -/
theorem test_wru_splice :
    seen (fun t => (t.len, t.cnt, firstBytes 5 t))
      (exec (.wru 13) { start (listed [0xFF, 0xFF, 0xFF, 0xFF, 0xFF]) 5 0 0 with val := 0x1ABC }) =
      some (18, 13, [0x9F, 0x57, 0xFF, 0xFF, 0xFF]) := by decide

/-- Section 2.2: nine bytes touched. -/
theorem test_wru_64 :
    seen (fun t => (t.len, firstBytes 9 t))
      (exec (.wru 64) { start (listed [0x05]) 3 0 0 with val := 0x0123456789ABCDEF }) =
      some (67, [0x7D, 0x6F, 0x5E, 0x4D, 0x3C, 0x2B, 0x1A, 0x09, 0x00]) := by decide +kernel

/-- Section 2.2: inside the written region. -/
theorem test_wruat :
    seen (fun t => (t.len, t.cnt, firstBytes 2 t))
      (exec (.wruat 6) { start (listed [0xFF, 0xFF]) 16 0 0 with ofs := 5 }) =
      some (16, 6, [0x1F, 0xF8]) := by decide

/-- Section 2.2: the sum is not wrapped. -/
theorem test_wruat_no_wrap :
    seen record (exec (.wruat 1) { start [] 0 0 0 with ofs := 0xFFFFFFFF, val := 1 }) = some (3, 0x00000111) := by
  decide

/-- Section 2.2: 64 bits from an unaligned cursor. -/
theorem test_rdu_64 :
    seen (fun t => (t.val, t.pos))
      (exec (.rdu 64) (start (listed [0x7D, 0x6F, 0x5E, 0x4D, 0x3C, 0x2B, 0x1A, 0x09]) 67 67 3)) =
      some (0x0123456789ABCDEF, 67) := by decide +kernel

/-- R187: `RDU 65` with nothing to read is `OVF_NBITS`. -/
theorem test_rdu_count_first : seen record (exec (.rdu 65) (start [] 0 0 0)) = some (2, 0x00004112) := by decide

/-- R124. -/
theorem test_pku :
    seen (fun t => (t.val, t.pos, t.cnt)) (exec (.pku 4) (start (listed [0x9E]) 8 8 4)) = some (9, 4, 4) := by decide

/-- R125; section 2.3, out of range. -/
theorem test_wrs :
    seen (fun t => (t.len, firstBytes 1 t)) (exec (.wrs 4) { start [] 0 0 0 with val := 0xFFFFFFFFFFFFFFFD }) =
      some (4, [0x0A]) := by decide

theorem test_wrs_out_of_range :
    seen (fun t => (t.len, firstBytes 1 t)) (exec (.wrs 4) { start [] 0 0 0 with val := 0xFFFFFFFFFFFFFFF7 }) =
      some (4, [0x08]) := by decide

/-- R129: the coding table for `N = 4` and the other widths listed. -/
theorem test_sign_coding_table :
    [7, 6, 5, 4, 3, 2, 1, 0, -1, -2, -3, -4, -5, -6, -7, -8].map (fun x => sEnc 4 (BitVec.ofInt 32 x)) =
      [0b0111, 0b0110, 0b0101, 0b0100, 0b0011, 0b0010, 0b0001, 0b0000, 0b1000, 0b1001, 0b1010, 0b1011, 0b1100, 0b1101,
       0b1110, 0b1111] ∧
    [-1, -128, 127].map (fun x => sEnc 8 (BitVec.ofInt 32 x)) = [0x80, 0xFF, 0x7F] ∧
    [-1000, -2048].map (fun x => sEnc 12 (BitVec.ofInt 32 x)) = [0xBE7, 0xFFF] ∧
    [-2 ^ 30, 2 ^ 30 - 1].map (fun x => sEnc 31 (BitVec.ofInt 32 x)) = [0x7FFFFFFF, 0x3FFFFFFF] ∧
    [-1, -2 ^ 31].map (fun x => sEnc 32 (BitVec.ofInt 32 x)) = [0xFFFFFFFF, 0x80000000] := by decide

/-- R126; section 2.3. -/
theorem test_rds :
    seen (fun t => (t.val, t.pos)) (exec (.rds 4) (start (listed [0x0A]) 4 4 0)) = some (0xFFFFFFFFFFFFFFFD, 4) := by
  decide

theorem test_rds_12 :
    seen (fun t => (t.val, t.cnt)) (exec (.rds 12) (start (listed [0xE7, 0x0B]) 12 12 0)) =
      some (0xFFFFFFFFFFFFFC18, 12) := by decide

/-- R127. -/
theorem test_pks :
    seen (fun t => (t.val, t.pos, t.cnt)) (exec (.pks 4) (start (listed [0x0A]) 4 4 0)) =
      some (0xFFFFFFFFFFFFFFFD, 0, 4) := by decide

/-- Section 2.4, the unaligned row; S6. -/
theorem test_wvu32_unaligned :
    seen (fun t => (t.len, t.cnt, firstBytes 3 t)) (exec .wvu32 { start (listed [0x05]) 3 0 0 with val := 300 }) =
      some (19, 16, [0x65, 0x15, 0x00]) := by decide +kernel

/-- Section 2.4: no byte is written when the whole does not fit. -/
theorem test_wvu32_capacity :
    seen id (exec .wvu32 { start [] 0 0 0 with capBytes := 2, val := 0x4000 }) =
      some { start [] 0 0 0 with capBytes := 2, val := 0x4000, fcode := 3, fcmd := 0x20 } := by decide +kernel

/-- Section 2.4: `2^63`. -/
theorem test_wvu64 :
    seen (fun t => (t.len, firstBytes 10 t)) (exec .wvu64 { start [] 0 0 0 with val := 0x8000000000000000 }) =
      some (80, [0x80, 0x80, 0x80, 0x80, 0x80, 0x80, 0x80, 0x80, 0x80, 0x01]) := by decide +kernel

/-- Section 2.4: `-2^31`. -/
theorem test_wvs32 :
    seen (fun t => (t.len, firstBytes 5 t)) (exec .wvs32 { start [] 0 0 0 with val := 0xFFFFFFFF80000000 }) =
      some (40, [0xFF, 0xFF, 0xFF, 0xFF, 0x0F]) := by decide +kernel

/-- Section 2.4: -65. -/
theorem test_wvs64 :
    seen (fun t => (t.cnt, firstBytes 2 t)) (exec .wvs64 { start [] 0 0 0 with val := 0xFFFFFFFFFFFFFFBF }) =
      some (16, [0x81, 0x01]) := by decide +kernel

/-- What section 2.5 lists of a varint read: `VAL`, `POS`, `CNT`, `TRUNC`. -/
def varView (t : State) : Word64 × Word32 × Word32 × Bool := (t.val, t.pos, t.cnt, t.trunc)

/-- Section 2.5: over-long. -/
theorem test_rvu32_overlong :
    seen varView (exec .rvu32 (start (listed [0xFF, 0xFF, 0xFF, 0xFF, 0xFF, 0xFF, 0x01]) 56 56 0)) =
      some (0xFFFFFFFF, 56, 56, false) := by decide +kernel

/-- Section 2.5: 15 bits hold one whole byte. -/
theorem test_rvu32_truncated :
    seen varView (exec .rvu32 (start (listed [0xAC, 0x02]) 15 15 0)) = some (0x2C, 8, 8, true) := by decide

/-- Section 2.5: bits past the width are dropped, the bytes consumed. -/
theorem test_rvu64 :
    seen varView (exec .rvu64
      (start (listed [0x80, 0x80, 0x80, 0x80, 0x80, 0x80, 0x80, 0x80, 0x80, 0x80, 0x01]) 88 88 0)) =
      some (0, 88, 88, false) := by decide +kernel

theorem test_rvs32 :
    seen varView (exec .rvs32 (start (listed [0xFF, 0xFF, 0xFF, 0xFF, 0x1F]) 40 40 0)) =
      some (0xFFFFFFFF80000000, 40, 40, false) := by decide +kernel

theorem test_rvs64_truncated :
    seen varView (exec .rvs64 (start (listed [0x81, 0x80]) 16 16 0)) = some (0xFFFFFFFFFFFFFFFF, 16, 16, true) := by
  decide

/-- S6. -/
theorem test_pvu32 :
    seen varView (exec .pvu32 (start (listed [0x65, 0x15]) 19 19 3)) = some (300, 3, 16, false) := by decide

theorem test_pvu64 : seen varView (exec .pvu64 (start (listed [0x80]) 8 8 0)) = some (0, 0, 8, true) := by decide

theorem test_pvs32 :
    seen varView (exec .pvs32 (start (listed [0x7F]) 8 8 0)) = some (0xFFFFFFFFFFFFFFC0, 0, 8, false) := by decide

theorem test_pvs64 :
    seen varView (exec .pvs64 (start (listed [0x81, 0x01]) 16 16 0)) = some (0xFFFFFFFFFFFFFFBF, 0, 16, false) := by
  decide

/-- S2, the second write. -/
theorem test_wrr :
    seen (fun t => (t.len, t.cnt, firstBytes 1 t))
      (exec .wrr { start (listed [0x0E]) 4 0 0 with lo := 0, hi := 15, val := 9 }) = some (8, 4, [0x9E]) := by decide

/-- R187: out of the range and the buffer full is `DOMAIN`. -/
theorem test_wrr_domain_first :
    seen record (exec .wrr { start [] 128 0 0 with lo := 0, hi := 15, val := 16 }) = some (4, 0x00000030) := by decide

/-- Section 2.6, read side: the sum wraps. -/
theorem test_rdr_wraps :
    seen (fun t => (t.val, t.pos))
      (exec .rdr { start (listed [0x0F]) 4 4 0 with lo := 0x7FFFFFFFFFFFFFF6, hi := 0x7FFFFFFFFFFFFFFF }) =
      some (0x8000000000000005, 4) := by decide

theorem test_rdr_domain :
    seen record (exec .rdr { start (listed [0x0F]) 4 4 0 with lo := 7, hi := 3 }) = some (4, 0x00000031) := by decide

/-- R173. -/
theorem test_pkr :
    seen (fun t => (t.val, t.pos, t.cnt)) (exec .pkr { start (listed [0x9E]) 8 8 4 with lo := 0, hi := 15 }) =
      some (9, 4, 4) := by decide

/-- Section 2.8: `STATUS` reads 0x11, `LENB` 2, `CAP` 128; `MemWr(16, 0xAA)` changes nothing. -/
theorem test_host :
    readReg { start [] 13 0 0 with fcode := 1, trunc := true } 5 = 0x11 ∧ readReg (start [] 13 0 0) 9 = 2 ∧
    readReg (start [] 13 0 0) 12 = 128 ∧ seen id (perform (.memWr 16 0xAA) (start [] 0 0 0)) = some (start [] 0 0 0) ∧
    seen id (perform (.writeReg 1 0x100000005) (start [] 0 0 0)) = some { start [] 0 0 0 with ofs := 5 } := by decide

/-! ## Values that meet the hypotheses of the statements

One theorem for each statement of Obligations.lean that has hypotheses, clause by clause, at the ends of the ranges.
A premise `exec i s = .next t` is met by the state the command answers. -/

/-- The state a step or a command answers. -/
def answer (s : State) : Result → State
  | .next t => t
  | .fault _ => s
  | .refused _ => s

theorem next_of_seen {r : Result} {t : State} (h : seen id r = some t) : r = .next t := by
  cases r <;> simp_all [seen]

/-- An engine with one host transaction to come. -/
def with1 (s : State) (t : Transaction) : State := { s with pending := [t] }

/-- A state that meets the invariants with every cursor at its bound. -/
def full : State := start (listed [0xFF, 0x01]) 128 128 128

theorem full_inv : full.Inv := by constructor <;> decide

theorem witness_EncodeOfDecode : decode 0x00004010 = .ok (.wru 64) ∧ decode 0x00000032 = .ok .pkr := by decide

theorem witness_DecodeClasses :
    legalWord 0x00004010 ∧ legalWord 0x00002014 ∧ countOutOfRange 0x00004110 ∧ countOutOfRange 0x00002114 ∧
    illegalWord 0x00008010 ∧ illegalWord 0x00000101 :=
  ⟨by decide, by decide, by decide, by decide, by decide, by decide⟩

theorem witness_StepRunsDecodedCommand :
    ((with1 (start [] 0 0 0) (.cmd 0x00000D10)).pending = .cmd 0x00000D10 :: [] ∧
      decode 0x00000D10 = .ok (.wru 13)) ∧
    ((with1 (start [] 0 0 0) (.writeReg 4 0xFFFFFFFF00000001)).pending = .writeReg 4 0xFFFFFFFF00000001 :: [] ∧
      decode ((0xFFFFFFFF00000001 : Word64).setWidth 32) = .ok .srst) := by decide

theorem witness_FaultGate :
    let s := { start [] 0 0 0 with fcode := 1, fcmd := 0x112 }
    ((with1 s (.cmd 0x00000101)).pending = .cmd 0x00000101 :: [] ∧ (with1 s (.cmd 0x00000101)).fcode ≠ 0 ∧
      (0x00000101 : Word32) ≠ 0x00000001) ∧
    ((with1 s (.cmd 0x00000001)).pending = .cmd 0x00000001 :: [] ∧ (with1 s (.cmd 0x00000001)).fcode ≠ 0) := by decide

theorem witness_IllegalWordFaults :
    (with1 full (.cmd 0x00008010)).pending = .cmd 0x00008010 :: [] ∧ (with1 full (.cmd 0x00008010)).fcode = 0 ∧
    illegalWord 0x00008010 := by decide

theorem witness_CountOutOfRangeFaults :
    (with1 full (.cmd 0x00004112)).pending = .cmd 0x00004112 :: [] ∧ (with1 full (.cmd 0x00004112)).fcode = 0 ∧
    countOutOfRange 0x00004112 ∧ countOutOfRange 0x00000012 := by decide

theorem witness_HostRegisterWrite :
    ∀ r ∈ ([0, 1, 2, 3, 4, 5, 15] : List (Fin 16)),
      (with1 full (.writeReg r 7)).pending = .writeReg r 7 :: [] ∧ (r.val ≤ 4 ∨ 5 ≤ r.val) := by decide

theorem witness_HostRegisterRead :
    ∀ r ∈ ([0, 4, 5, 12, 13, 15] : List (Fin 16)), (with1 full (.readReg r)).pending = .readReg r :: [] := by decide

theorem witness_MemoryPort :
    ((with1 full (.memRd 15)).pending = .memRd 15 :: [] ∧ 15 < full.capBytes.val) ∧
    ((with1 full (.memRd 16)).pending = .memRd 16 :: [] ∧ full.capBytes.val ≤ 16) ∧
    ((with1 full (.memWr 15 0xAA)).pending = .memWr 15 0xAA :: [] ∧ 15 < full.capBytes.val) ∧
    ((with1 full (.memWr 16 0xAA)).pending = .memWr 16 0xAA :: [] ∧ full.capBytes.val ≤ 16) := by decide

theorem witness_IdleEngineHoldsState : State.reset.pending = [] := by decide

theorem witness_ResetMeetsInvariant :
    (1 ≤ (1 : CapBytes).val ∧ memoryWf [(0, 0xAC)] ∧ memoryBelow (1 : CapBytes).val [(0, 0xAC)]) ∧
    (1 ≤ (536870911 : CapBytes).val ∧ memoryWf [(0, 0xAC), (536870910, 0x02)] ∧
      memoryBelow (536870911 : CapBytes).val [(0, 0xAC), (536870910, 0x02)]) := by decide

theorem witness_StepKeepsInvariant : full.Inv ∧ step full = .next full := ⟨full_inv, rfl⟩

theorem witness_StepAlwaysCompletes : full.Inv := full_inv

theorem witness_FirstFailingTestReported :
    full.fcode = 0 ∧ full.rlen.toNat ≤ full.capBits ∧ firstFault (.wru 65) full = some .ovfNbits ∧
    firstFault .wrr { full with val := 1 } = some .domain ∧ firstFault (.wru 1) full = some .ovfCap ∧
    firstFault (.rdu 1) full = some .ovfRead ∧ firstFault .padb full = none := by decide

theorem witness_FaultRecordsOnly :
    let s := with1 full (.cmd 0x00000112)
    s.pending = .cmd 0x00000112 :: [] ∧ s.fcode = 0 ∧ seen State.fcode (step s) = some 1 := by decide

theorem witness_FaultedUntilSoftReset :
    let s := { full with fcode := 5 }
    (with1 s (.cmd 0x00000001)).fcode ≠ 0 ∧ seen State.fcode (step (with1 s (.cmd 0x00000001))) = some 0 ∧
    (with1 s (.cmd 0x00000002)).fcode ≠ 0 ∧ seen State.fcode (step (with1 s (.cmd 0x00000002))) = some 5 := by decide

theorem witness_DataRegisterWriters :
    (∃ t, exec (.rdu 8) (start [] 8 8 0) = .next t) ∧ Instr.rdu 8 ≠ .srst ∧
    (∃ t, exec (.wru 8) (start [] 8 8 0) = .next t) ∧ writesVal (.wru 8) = false :=
  ⟨⟨_, rfl⟩, by decide, ⟨_, rfl⟩, by decide⟩

theorem witness_CursorAndFlagWriters :
    (∃ t, exec (.rdu 8) (start [] 8 8 0) = .next t) ∧ writesLen (.rdu 8) = false ∧ writesRlen (.rdu 8) = false ∧
    writesTrunc (.rdu 8) = false ∧ writesMem (.rdu 8) = false ∧
    (∃ t, exec .wnew (start [] 8 8 0) = .next t) ∧ writesPos .wnew = false ∧ writesCnt .wnew = false :=
  ⟨⟨_, rfl⟩, by decide, by decide, by decide, by decide, ⟨_, rfl⟩, by decide, by decide⟩

theorem witness_LengthGrowsMonotonically :
    (start [] 127 0 0).len.toNat ≤ (start [] 127 0 0).capBits ∧ Instr.pad 1 ≠ .srst ∧ Instr.pad 1 ≠ .wnew ∧
    Instr.pad 1 ≠ .wimp ∧ ∃ t, exec (.pad 1) (start [] 127 0 0) = .next t :=
  ⟨by decide, by decide, by decide, by decide, _, rfl⟩

theorem witness_MemoryFrame :
    (start [] 127 0 0).len.toNat ≤ (start [] 127 0 0).capBits ∧ appends (.wru 1) = true ∧
    (∃ t, exec (.wru 1) (start [] 127 0 0) = .next t) ∧ (∃ t, exec (.wruat 64) (start [] 127 0 0) = .next t) ∧
    (start [] 127 0 0).fcode = 0 ∧ (∃ t, exec .wnew (start [] 127 0 0) = .next t) ∧ writesMem .ropen = false ∧
    ∃ t, exec .ropen (start [] 127 0 0) = .next t :=
  ⟨by decide, by decide, ⟨_, rfl⟩, ⟨_, rfl⟩, by decide, ⟨_, rfl⟩, by decide, _, rfl⟩

theorem witness_UnlistedRegistersNotRead :
    Instr.rdu 8 ≠ .srst ∧ readsOfs (.rdu 8) = false ∧ readsBounds (.rdu 8) = false ∧ writesVal (.rdu 8) = true ∧
    (start [] 8 8 0).fcode = 0 ∧ ∃ t, exec (.rdu 8) (start [] 8 8 0) = .next t ∧ t.fcode = 0 :=
  ⟨by decide, by decide, by decide, by decide, by decide, _, rfl, by decide⟩

theorem witness_UpperBitsOfValIgnored :
    writesVal (.wru 3) = false ∧
    (0xFFFFFFFFFFFFFFFD : Word64).toNat % 2 ^ valBitsRead (.wru 3) =
      { start [] 0 0 0 with val := 5 }.val.toNat % 2 ^ valBitsRead (.wru 3) ∧
    ∃ t, exec (.wru 3) { start [] 0 0 0 with val := 5 } = .next t :=
  ⟨by decide, by decide, _, rfl⟩

theorem witness_PutBitsThenGetBits :
    (64 ≤ 64 ∧ 64 + 64 ≤ 128) ∧ (0 ≤ 64 ∧ 128 + 0 ≤ 128) ∧ (0 + 64 ≤ 128 ∧ (0 + 64 ≤ 64 ∨ 64 + 64 ≤ 0)) := by decide

theorem witness_ByteFormEqualsBitForm : 33 ≤ 64 ∧ 32 < 33 ∧ 64 ≤ 64 ∧ 32 < 64 ∧ 0 ≤ 64 := by decide

theorem witness_FieldSplitsIntoParts : 3 + (13 + 112) ≤ 128 := by decide

theorem witness_WnewResult : full.fcode = 0 := by decide

theorem witness_WimpResult :
    (let s := { full with ofs := 16 }; s.fcode = 0 ∧ 8 * s.ofs.toNat ≤ s.capBits) ∧
    (let s := { full with ofs := 17 }; s.fcode = 0 ∧ s.capBits < 8 * s.ofs.toNat) := by decide

theorem witness_OpenReaderResult : full.fcode = 0 ∧ full.len.toNat ≤ full.capBits := by decide

theorem witness_RseekResult :
    (let s := { full with ofs := 128 }; s.fcode = 0 ∧ s.ofs.toNat ≤ s.rlen.toNat) ∧
    (let s := { full with ofs := 129 }; s.fcode = 0 ∧ s.rlen.toNat < s.ofs.toNat) := by decide

theorem witness_PadbResult :
    (full.fcode = 0 ∧ full.len.toNat ≤ full.capBits) ∧
    ((start [] 121 0 0).fcode = 0 ∧ (start [] 121 0 0).len.toNat ≤ (start [] 121 0 0).capBits) := by decide

/-- The counts at the ends of their range, each with its word, for the nine `FN` commands of the statements below. -/
theorem witness_counts :
    ∀ opc ∈ [0x09, 0x0B, 0x10, 0x11, 0x12, 0x13, 0x14, 0x16, 0x17], ∀ n ∈ ([0, 1, 32, 33, 64, 65, 127] : List (BitVec 7)),
      (BitVec.ofNat 32 (opc + 256 * n.toNat)).toNat = opc + 256 * n.toNat := by decide

theorem witness_PadResult :
    (start [] 64 0 0).fcode = 0 ∧ (0x00004009 : Word32).toNat = 0x09 + 256 * (64 : BitVec 7).toNat ∧
    (1 ≤ (64 : BitVec 7).toNat ∧ (64 : BitVec 7).toNat ≤ 64 ∧
      (start [] 64 0 0).len.toNat + (64 : BitVec 7).toNat ≤ (start [] 64 0 0).capBits) ∧
    (start [] 65 0 0).capBits < (start [] 65 0 0).len.toNat + (64 : BitVec 7).toNat ∧
    (0x00004109 : Word32).toNat = 0x09 + 256 * (65 : BitVec 7).toNat ∧ 64 < (65 : BitVec 7).toNat ∧
    (0x00000009 : Word32).toNat = 0x09 + 256 * (0 : BitVec 7).toNat ∧ (0 : BitVec 7).toNat = 0 := by decide

theorem witness_RpadbResult :
    (let s := start [] 16 16 13; s.fcode = 0 ∧ s.pos.toNat + (8 - s.pos.toNat % 8) % 8 ≤ s.rlen.toNat) ∧
    (let s := start [] 15 15 13; s.fcode = 0 ∧ s.rlen.toNat < s.pos.toNat + (8 - s.pos.toNat % 8) % 8) := by decide

theorem witness_RskipResult :
    (start [] 64 64 0).fcode = 0 ∧ (0x0000400B : Word32).toNat = 0x0B + 256 * (64 : BitVec 7).toNat ∧
    (1 ≤ (64 : BitVec 7).toNat ∧ (64 : BitVec 7).toNat ≤ 64 ∧
      (start [] 64 64 0).pos.toNat + (64 : BitVec 7).toNat ≤ (start [] 64 64 0).rlen.toNat) ∧
    (start [] 63 63 0).rlen.toNat < (start [] 63 63 0).pos.toNat + (64 : BitVec 7).toNat ∧
    (0x0000410B : Word32).toNat = 0x0B + 256 * (65 : BitVec 7).toNat ∧ 64 < (65 : BitVec 7).toNat := by decide

theorem witness_PaddingLaws :
    full.fcode = 0 ∧ full.len.toNat ≤ full.capBits ∧ ∃ t, exec (.rskip 5) (start [] 31 31 0) = .next t :=
  ⟨by decide, by decide, _, rfl⟩

theorem witness_WruResult :
    (start [] 64 0 0).fcode = 0 ∧ (0x00004010 : Word32).toNat = 0x10 + 256 * (64 : BitVec 7).toNat ∧
    (1 ≤ (64 : BitVec 7).toNat ∧ (64 : BitVec 7).toNat ≤ 64 ∧
      (start [] 64 0 0).len.toNat + (64 : BitVec 7).toNat ≤ (start [] 64 0 0).capBits) ∧
    (start [] 65 0 0).capBits < (start [] 65 0 0).len.toNat + (64 : BitVec 7).toNat ∧
    (0x00004110 : Word32).toNat = 0x10 + 256 * (65 : BitVec 7).toNat ∧ 64 < (65 : BitVec 7).toNat := by decide

theorem witness_WruatResult :
    (start [] 0 0 0).fcode = 0 ∧ (0x00000811 : Word32).toNat = 0x11 + 256 * (8 : BitVec 7).toNat ∧
    (1 ≤ (8 : BitVec 7).toNat ∧ (8 : BitVec 7).toNat ≤ 64 ∧
      { start [] 0 0 0 with ofs := 120 }.ofs.toNat + (8 : BitVec 7).toNat ≤ { start [] 0 0 0 with ofs := 120 }.capBits) ∧
    { start [] 0 0 0 with ofs := 121 }.capBits < { start [] 0 0 0 with ofs := 121 }.ofs.toNat + (8 : BitVec 7).toNat ∧
    (0x00004111 : Word32).toNat = 0x11 + 256 * (65 : BitVec 7).toNat ∧ 64 < (65 : BitVec 7).toNat := by decide

theorem witness_UnsignedReadResult :
    (start [] 64 64 0).fcode = 0 ∧ (0x00004012 : Word32).toNat = 0x12 + 256 * (64 : BitVec 7).toNat ∧
    (0x00004013 : Word32).toNat = 0x13 + 256 * (64 : BitVec 7).toNat ∧
    (1 ≤ (64 : BitVec 7).toNat ∧ (64 : BitVec 7).toNat ≤ 64 ∧
      (start [] 64 64 0).pos.toNat + (64 : BitVec 7).toNat ≤ (start [] 64 64 0).rlen.toNat ∧
      (start [] 64 64 0).rlen.toNat ≤ (start [] 64 64 0).capBits) ∧
    (start [] 63 63 0).rlen.toNat < (start [] 63 63 0).pos.toNat + (64 : BitVec 7).toNat ∧
    (0x00000012 : Word32).toNat = 0x12 + 256 * (0 : BitVec 7).toNat ∧ (0 : BitVec 7).toNat = 0 := by decide

theorem witness_WrsResult :
    (start [] 96 0 0).fcode = 0 ∧ (0x00002014 : Word32).toNat = 0x14 + 256 * (32 : BitVec 7).toNat ∧
    (1 ≤ (32 : BitVec 7).toNat ∧ (32 : BitVec 7).toNat ≤ 32 ∧
      (start [] 96 0 0).len.toNat + (32 : BitVec 7).toNat ≤ (start [] 96 0 0).capBits) ∧
    (start [] 97 0 0).capBits < (start [] 97 0 0).len.toNat + (32 : BitVec 7).toNat ∧
    (0x00002114 : Word32).toNat = 0x14 + 256 * (33 : BitVec 7).toNat ∧ 32 < (33 : BitVec 7).toNat := by decide

theorem witness_SignedReadResult :
    (start [] 32 32 0).fcode = 0 ∧ (0x00002016 : Word32).toNat = 0x16 + 256 * (32 : BitVec 7).toNat ∧
    (0x00002017 : Word32).toNat = 0x17 + 256 * (32 : BitVec 7).toNat ∧
    (1 ≤ (32 : BitVec 7).toNat ∧ (32 : BitVec 7).toNat ≤ 32 ∧
      (start [] 32 32 0).pos.toNat + (32 : BitVec 7).toNat ≤ (start [] 32 32 0).rlen.toNat ∧
      (start [] 32 32 0).rlen.toNat ≤ (start [] 32 32 0).capBits) ∧
    (start [] 31 31 0).rlen.toNat < (start [] 31 31 0).pos.toNat + (32 : BitVec 7).toNat ∧
    (0x00002116 : Word32).toNat = 0x16 + 256 * (33 : BitVec 7).toNat ∧ 32 < (33 : BitVec 7).toNat := by decide

theorem witness_SignIndicatorCoding :
    ∀ c ∈ ([(32, 0x80000000), (32, 0x7FFFFFFF), (31, 0xC0000000), (4, 0xFFFFFFF8), (4, 7), (1, 0xFFFFFFFF), (1, 0)] :
        List (Nat × Word32)),
      1 ≤ c.1 ∧ c.1 ≤ 32 ∧ -(2 ^ (c.1 - 1) : Int) ≤ c.2.toInt ∧ c.2.toInt ≤ (2 ^ (c.1 - 1) : Int) - 1 := by decide

theorem witness_SignIndicatorAlwaysFits : (1 ≤ 1 ∧ 1 < 32) ∧ (1 ≤ 31 ∧ 31 < 32) := by decide

/-- Two 13-bit fields, one unsigned and one signed, at bit 5, and a reader at them. -/
theorem witness_FixedWidthRoundTrip :
    let s := { start [] 5 0 0 with val := 0xFFFFFFFFFFFFF000 }
    let n : BitVec 7 := 13
    let t := answer s (exec (.wru n) s)
    let t' := answer s (exec (.wrs n) s)
    (s.fcode = 0 ∧ s.len.toNat + n.toNat ≤ s.capBits ∧ exec (.wru n) s = .next t ∧ 1 ≤ n.toNat ∧ n.toNat ≤ 64) ∧
    (let r := start t.mem 18 18 5
     r.mem = t.mem ∧ r.capBytes = t.capBytes ∧ r.fcode = 0 ∧ r.pos = s.len ∧ s.len.toNat + n.toNat ≤ r.rlen.toNat) ∧
    (exec (.wrs n) s = .next t' ∧ n.toNat ≤ 32 ∧ -(2 ^ (n.toNat - 1) : Int) ≤ (s.val.setWidth 32).toInt ∧
      (s.val.setWidth 32).toInt ≤ (2 ^ (n.toNat - 1) : Int) - 1) ∧
    (let r := start t'.mem 18 18 5
     r.mem = t'.mem ∧ r.capBytes = t'.capBytes ∧ r.pos = s.len) :=
  ⟨⟨by decide, by decide, rfl, by decide, by decide⟩, ⟨rfl, rfl, rfl, rfl, by decide⟩,
    ⟨rfl, by decide, by decide, by decide⟩, rfl, rfl, rfl⟩

theorem witness_VarintWriteResult :
    (let s := { start [] 112 0 0 with val := 300 }
     s.fcode = 0 ∧ isVarCount 300 2 ∧
      (Instr.wvu32, (0x00000020 : Word32), 300) ∈
        [(Instr.wvu32, 0x00000020, s.val.toNat % 2 ^ 32), (Instr.wvu64, 0x00000021, s.val.toNat),
         (Instr.wvs32, 0x00000022, zigzagOf (s.val.setWidth 32).toInt),
         (Instr.wvs64, 0x00000023, zigzagOf s.val.toInt)] ∧
      s.len.toNat + 8 * 2 ≤ s.capBits) ∧
    (let s := { start [] 113 0 0 with val := 0xFFFFFFFFFFFFFFBF }
     s.fcode = 0 ∧ isVarCount 129 2 ∧
      (Instr.wvs64, (0x00000023 : Word32), 129) ∈
        [(Instr.wvu32, 0x00000020, s.val.toNat % 2 ^ 32), (Instr.wvu64, 0x00000021, s.val.toNat),
         (Instr.wvs32, 0x00000022, zigzagOf (s.val.setWidth 32).toInt),
         (Instr.wvs64, 0x00000023, zigzagOf s.val.toInt)] ∧
      s.capBits < s.len.toNat + 8 * 2) := by decide

theorem witness_VarintByteCount :
    (2 ^ 64 - 1 < 2 ^ 64 ∧ isVarCount (2 ^ 64 - 1) 10) ∧ (2 ^ 32 - 1 < 2 ^ 32 ∧ isVarCount (2 ^ 32 - 1) 5) ∧
    isVarCount 0 1 ∧
    ∀ c ∈ [(Instr.wvu32, 5), (Instr.wvs32, 5), (Instr.wvu64, 10), (Instr.wvs64, 10)],
      let s := { start [] 0 0 0 with val := 0x8000000080000000 }
      s.fcode = 0 ∧ seen State.fcode (exec c.1 s) = some 0 ∧
        seen (fun t => t.cnt.toNat) (exec c.1 s) = some (8 * c.2) := by decide +kernel

theorem witness_VarintReadTerminated :
    let s := start (listed [0x65, 0x15]) 19 19 3
    s.fcode = 0 ∧ s.rlen.toNat ≤ s.capBits ∧ varTerminated s 1 ∧
    (Instr.rvu32, Instr.pvu32, (300 : Int)) ∈
        [(Instr.rvu32, Instr.pvu32, ((varGroups s.mem s.pos.toNat (1 + 1) % 2 ^ 32 : Nat) : Int)),
         (Instr.rvu64, Instr.pvu64, ((varGroups s.mem s.pos.toNat (1 + 1) % 2 ^ 64 : Nat) : Int)),
         (Instr.rvs32, Instr.pvs32, unzigzagOf (varGroups s.mem s.pos.toNat (1 + 1) % 2 ^ 32)),
         (Instr.rvs64, Instr.pvs64, unzigzagOf (varGroups s.mem s.pos.toNat (1 + 1) % 2 ^ 64))] := by decide

theorem witness_VarintReadTruncated :
    let s := start (listed [0x81, 0x80]) 16 16 0
    let u := start [] 7 7 0
    (s.fcode = 0 ∧ s.pos.toNat ≤ s.rlen.toNat ∧ s.rlen.toNat ≤ s.capBits ∧ varTruncated s ∧
      (Instr.rvs64, Instr.pvs64, (-1 : Int)) ∈
        [(Instr.rvu32, Instr.pvu32, ((varGroups s.mem s.pos.toNat (wholeBytesLeft s) % 2 ^ 32 : Nat) : Int)),
         (Instr.rvu64, Instr.pvu64, ((varGroups s.mem s.pos.toNat (wholeBytesLeft s) % 2 ^ 64 : Nat) : Int)),
         (Instr.rvs32, Instr.pvs32, unzigzagOf (varGroups s.mem s.pos.toNat (wholeBytesLeft s) % 2 ^ 32)),
         (Instr.rvs64, Instr.pvs64, unzigzagOf (varGroups s.mem s.pos.toNat (wholeBytesLeft s) % 2 ^ 64))]) ∧
    (u.fcode = 0 ∧ u.pos.toNat ≤ u.rlen.toNat ∧ u.rlen.toNat ≤ u.capBits ∧ wholeBytesLeft u = 0 ∧ varTruncated u) := by
  decide

theorem witness_VarintReadsNeverFault :
    full.fcode = 0 ∧ full.pos.toNat ≤ full.rlen.toNat ∧ full.rlen.toNat ≤ full.capBits ∧
    Instr.pvs64 ∈ [Instr.rvu32, .rvu64, .rvs32, .rvs64, .pvu32, .pvu64, .pvs32, .pvs64] := by decide

theorem witness_VarintRoundTrip :
    let s := { start (listed [0x05]) 3 0 0 with val := 300 }
    let t := { start (listed [0x65, 0x15]) 19 0 0 with val := 300, cnt := 16 }
    let r := start t.mem 19 19 3
    s.fcode = 0 ∧ s.len.toNat ≤ s.capBits ∧ exec .wvu32 s = .next t ∧ t.fcode = 0 ∧
    (Instr.wvu32, Instr.rvu32, (300 : Word64)) ∈
      [(Instr.wvu32, Instr.rvu32, (s.val.setWidth 32).setWidth 64), (Instr.wvu64, Instr.rvu64, s.val),
       (Instr.wvs32, Instr.rvs32, (s.val.setWidth 32).signExtend 64), (Instr.wvs64, Instr.rvs64, s.val)] ∧
    r.mem = t.mem ∧ r.capBytes = t.capBytes ∧ r.fcode = 0 ∧ r.pos = s.len ∧ t.len.toNat ≤ r.rlen.toNat :=
  ⟨by decide, by decide, next_of_seen (by decide +kernel), by decide, by decide, rfl, rfl, rfl, rfl, by decide⟩

theorem witness_WrrResult :
    (let s := { start [] 124 0 0 with lo := 0xFFFFFFFFFFFFFFF8, hi := 7, val := 7 }
     s.fcode = 0 ∧ s.lo.toInt ≤ s.val.toInt ∧ s.val.toInt ≤ s.hi.toInt ∧
      isBitlen (s.hi.toInt - s.lo.toInt).toNat 4 ∧ s.len.toNat + 4 ≤ s.capBits) ∧
    (let s := { start [] 125 0 0 with lo := 0, hi := 15, val := 15 }
     s.fcode = 0 ∧ s.lo.toInt ≤ s.val.toInt ∧ s.val.toInt ≤ s.hi.toInt ∧
      isBitlen (s.hi.toInt - s.lo.toInt).toNat 4 ∧ s.capBits < s.len.toNat + 4) ∧
    (let s := { full with lo := 5, hi := 5, val := 5 }
     s.lo.toInt ≤ s.val.toInt ∧ s.val.toInt ≤ s.hi.toInt ∧ isBitlen (s.hi.toInt - s.lo.toInt).toNat 0 ∧
      s.len.toNat + 0 ≤ s.capBits) ∧
    (let s := { full with lo := 0, hi := 15, val := 16 }
     s.fcode = 0 ∧ (s.val.toInt < s.lo.toInt ∨ s.hi.toInt < s.val.toInt)) := by decide

theorem witness_RangedReadResult :
    (let s := { start (listed [0x9E]) 8 8 4 with lo := 0, hi := 15 }
     s.fcode = 0 ∧ s.lo.toInt ≤ s.hi.toInt ∧ isBitlen (s.hi.toInt - s.lo.toInt).toNat 4 ∧
      s.pos.toNat + 4 ≤ s.rlen.toNat ∧ s.rlen.toNat ≤ s.capBits) ∧
    (let s := { start (listed [0x07]) 3 3 0 with lo := 0, hi := 15 }
     s.fcode = 0 ∧ s.lo.toInt ≤ s.hi.toInt ∧ isBitlen (s.hi.toInt - s.lo.toInt).toNat 4 ∧
      s.rlen.toNat < s.pos.toNat + 4) ∧
    (let s := { start (listed [0x0F]) 4 4 0 with lo := 7, hi := 3 }; s.fcode = 0 ∧ s.hi.toInt < s.lo.toInt) := by decide

theorem witness_RangedRoundTrip :
    let s := { start (listed [0x0E]) 4 0 0 with lo := 0, hi := 15, val := 9 }
    let t := answer s (exec .wrr s)
    let r := { start t.mem 8 8 4 with lo := 0, hi := 15 }
    s.fcode = 0 ∧ s.lo.toInt ≤ s.val.toInt ∧ s.val.toInt ≤ s.hi.toInt ∧ s.len.toNat ≤ s.capBits ∧
    exec .wrr s = .next t ∧ t.fcode = 0 ∧ r.mem = t.mem ∧ r.capBytes = t.capBytes ∧ r.fcode = 0 ∧ r.lo = s.lo ∧
    r.hi = s.hi ∧ r.pos = s.len ∧ t.len.toNat ≤ r.rlen.toNat :=
  ⟨by decide, by decide, by decide, by decide, rfl, by decide, rfl, rfl, rfl, rfl, rfl, rfl, by decide⟩

theorem witness_RangedWriteIsUnsignedWrite :
    (let s := { start [] 65 0 0 with hi := 0x7FFFFFFFFFFFFFFF, val := 12345 }
     s.fcode = 0 ∧ s.lo = 0 ∧ s.hi.toNat = 2 ^ (63 : BitVec 7).toNat - 1 ∧ s.val.toNat ≤ s.hi.toNat ∧
      s.len.toNat + (63 : BitVec 7).toNat ≤ s.capBits) ∧
    (let s := { start [] 127 0 0 with hi := 1, val := 1 }
     s.fcode = 0 ∧ s.lo = 0 ∧ s.hi.toNat = 2 ^ (1 : BitVec 7).toNat - 1 ∧ s.val.toNat ≤ s.hi.toNat ∧
      s.len.toNat + (1 : BitVec 7).toNat ≤ s.capBits) ∧
    1 ≤ (1 : BitVec 7).toNat ∧ (63 : BitVec 7).toNat ≤ 63 := by
  refine ⟨⟨?_, ?_, ?_, ?_, ?_⟩, ⟨?_, ?_, ?_, ?_, ?_⟩, ?_, ?_⟩ <;> decide

theorem witness_PeekIdempotence :
    consumingForm .pvu32 = some .rvu32 ∧
    ∃ t, exec .pvu32 (start (listed [0x65, 0x15]) 19 19 3) = .next t ∧ t.fcode = 0 :=
  ⟨by decide, _, rfl, by decide⟩

end Sys2Proof.Tests
end

/-! The bit-field primitives on byte boundaries (R56): they are `MemRead` and `MemWrite` of R9. -/

namespace Sys2Proof.Machine

/-! ## Reading -/

/-- The eight stream bits from `8 * a` are the byte at `a` (R51). -/
theorem fieldAt_eight_eq_readByte (m : List Host.Cell) (a : Nat) :
    fieldAt m (8 * a) 8 = (readByte m a).toNat := by
  refine Nat.eq_of_testBit_eq fun i => ?_
  rw [testBit_fieldAt, BitVec.testBit_toNat]
  by_cases hi : i < 8
  · rw [getLsbD_readByte _ _ hi, decide_eq_true hi, Bool.true_and]
  · simp [hi, BitVec.getLsbD_of_ge _ _ (Nat.le_of_not_lt hi)]

theorem fieldAt_aligned_eq_memRead (m : List Host.Cell) (a n : Nat) :
    fieldAt m (8 * a) (8 * n) = memRead m a n := by
  induction n with
  | zero => rfl
  | succ n ih =>
    rw [Nat.mul_succ, fieldAt_add, ih, ← Nat.mul_add, fieldAt_eight_eq_readByte, Nat.mul_comm, memRead]

/-! ## Writing -/

/-- What a memory write does to the bytes (R9): its own bytes, no other. -/
theorem readByte_memWrite (m : List Host.Cell) (a n v x : Nat) :
    readByte (memWrite m a n v) x =
      if a ≤ x ∧ x < a + n then BitVec.ofNat 8 (v >>> (8 * (x - a))) else readByte m x := by
  induction n with
  | zero => rw [memWrite, if_neg (by omega)]
  | succ n ih =>
    rw [memWrite, readByte_writeByte, ih]
    by_cases hx : x = a + n
    · subst hx; simp
    · simp only [hx, if_false, show x < a + (n + 1) ↔ x < a + n ∨ x = a + n by omega, or_false]

/-- What an aligned field write does to the bytes: byte `a + j` of the field is byte `j` of the value. -/
theorem readByte_putField_aligned (m : List Host.Cell) (a n v x : Nat) :
    readByte (putField m (8 * a) (8 * n) v) x =
      if a ≤ x ∧ x < a + n then BitVec.ofNat 8 (v >>> (8 * (x - a))) else readByte m x := by
  by_cases hx : a ≤ x ∧ x < a + n
  · rw [if_pos hx]
    refine BitVec.eq_of_getLsbD_eq fun i hi => ?_
    rw [getLsbD_readByte _ _ hi, streamBit_putField, if_pos (by omega), BitVec.getLsbD_ofNat, Nat.testBit_shiftRight,
      show 8 * x + i - 8 * a = 8 * (x - a) + i by omega]
    simp [hi]
  · rw [if_neg hx, readByte_putField_outside _ _ _ _ (by omega)]

/-- A field write takes only the low bits of its value (R54). -/
theorem putField_mod (m : List Host.Cell) (off n v : Nat) : putField m off n (v % 2 ^ n) = putField m off n v :=
  putField_congr m off fun i hi => by simp [Nat.testBit_mod_two_pow, hi]

/-- Settles O29: the read by splitting the field into bytes, the write because both operations set the same bytes. -/
theorem alignedFieldsAreMemoryAccesses : Obligations.AlignedFieldsAreMemoryAccesses := by
  intro m a n v
  refine ⟨fieldAt_aligned_eq_memRead m a n, fun x => ?_⟩
  rw [← putField_mod, readByte_putField_aligned, readByte_memWrite]

end Sys2Proof.Machine

/-! What one host transaction does (R36 to R39, R62) and the statements on the host's interface and on reset. -/

namespace Sys2Proof.Machine

section

variable {s : State} {rest : List Transaction}

/-- A step performs the first transaction of the list, taken off it (R62). -/
theorem step_of_pending {tr : Transaction} (h : s.pending = tr :: rest) :
    step s = perform tr (s.withPending rest) := by
  simp only [step, performNext, h]

/-- With nothing to come the engine holds its state (R205). -/
theorem step_of_idle (h : s.pending = []) : step s = .next s := by
  simp only [step, performNext, h]

theorem performCmd_of_decode {w : Word32} {i : Instr} (h : decode w = .ok i) : performCmd w s = exec i s := by
  simp only [performCmd, h]

theorem performCmd_of_illegal {w : Word32} {e : DecodeError} (h : decode w = .error e) :
    performCmd w s = gated s (raise .illegal w s) := by
  simp only [performCmd, h]

/-! ## Register writes, one equation per register number (R36) -/

section

variable (v : Word64)

theorem performWriteReg_val : performWriteReg 0 v s = .next (s.setVal v) := rfl

theorem performWriteReg_ofs : performWriteReg 1 v s = .next (s.setOfs (low32 v)) := rfl

theorem performWriteReg_lo : performWriteReg 2 v s = .next (s.setLo v) := rfl

theorem performWriteReg_hi : performWriteReg 3 v s = .next (s.setHi v) := rfl

theorem performWriteReg_cmd : performWriteReg 4 v s = performCmd (low32 v) s := rfl

/-- Registers 5 to 15 are read-only or unassigned. -/
theorem performWriteReg_readOnly {r : Fin 16} (h : 5 ≤ r.val) : performWriteReg r v s = .next s := by
  unfold performWriteReg
  split
  case h_6 => rfl
  all_goals omega

/-- The register numbers as the writes tell them apart (R36). -/
theorem writeReg_cases (r : Fin 16) : r = 0 ∨ r = 1 ∨ r = 2 ∨ r = 3 ∨ r = 4 ∨ 5 ≤ r.val := by omega

end

/-! ## The memory port (R39) -/

section

variable {a : Nat}

theorem performMemRd_inside (h : a < s.capBytes.val) :
    performMemRd a s = .next (s.replied (.byte (readByte s.mem a))) := if_pos h

theorem performMemRd_outside (h : s.capBytes.val ≤ a) :
    performMemRd a s = .next (s.drawn.replied (.byte (Config.portByteOutside s.freeDraws))) :=
  if_neg (Nat.not_lt.mpr h)

theorem performMemWr_inside (b : Byte) (h : a < s.capBytes.val) :
    performMemWr a b s = .next (s.withMem (writeByte s.mem a b)) := if_pos h

theorem performMemWr_outside (b : Byte) (h : s.capBytes.val ≤ a) : performMemWr a b s = .next s :=
  if_neg (Nat.not_lt.mpr h)

end

/-! ## What registers read as (R37) -/

/-- `STATUS` as a number: `FCODE` in bits 3:0, `TRUNC` in bit 4 (R27). -/
theorem statusWord_toNat (s : State) : (statusWord s).toNat = s.fcode.toNat + 16 * s.trunc.toNat := by
  rw [statusWord, BitVec.toNat_append, ← Nat.shiftLeft_add_eq_or_of_lt s.fcode.isLt, Nat.shiftLeft_eq,
    BitVec.toNat_append]
  simp [Nat.mul_comm, Nat.add_comm]

/-- A 32-bit register reads zero-extended. -/
theorem setWidth64_toNat (x : Word32) : (x.setWidth 64).toNat = x.toNat :=
  BitVec.toNat_setWidth_of_le (by decide)

/-- `LENB`, register 9 (R23). -/
theorem readReg_lenb (s : State) : (readReg s 9).toNat = (s.len.toNat + 7) / 8 := by
  have := s.len.isLt
  exact Nat.mod_eq_of_lt (by omega)

/-- `CAP`, register 12 (R29). -/
theorem readReg_cap (s : State) : (readReg s 12).toNat = 8 * s.capBytes.val :=
  Nat.mod_eq_of_lt ((capBits_lt s).trans (by decide))

/-- `STATUS`, register 5 (R27). -/
theorem readReg_status (s : State) : (readReg s 5).toNat = s.fcode.toNat + 16 * s.trunc.toNat :=
  (setWidth64_toNat _).trans (statusWord_toNat s)

/-- `CMD` and the unassigned registers read 0. -/
theorem readReg_zero {r : Fin 16} (h : r = 4 ∨ 13 ≤ r.val) : readReg s r = 0 := by
  unfold readReg
  split
  case h_13 => rfl
  all_goals omega

end

/-! ## The statements on the host's interface -/

/-- Settles O5: both ways of issuing a command come to `performCmd`. -/
theorem stepRunsDecodedCommand : Obligations.StepRunsDecodedCommand := by
  intro s rest i
  refine ⟨fun w hp hd => ?_, fun v hp hd => ?_⟩
  · exact (step_of_pending hp).trans (performCmd_of_decode hd)
  · exact (step_of_pending hp).trans (performCmd_of_decode hd)

/-- Settles O9: one equation of `performWriteReg` per register number. -/
theorem hostRegisterWrite : Obligations.HostRegisterWrite := by
  intro s r v rest hp
  have hstep : step s = performWriteReg r v (s.withPending rest) := step_of_pending hp
  refine ⟨?_, ?_, ?_, ?_, ?_, fun h => hstep.trans (performWriteReg_readOnly v h)⟩
  · rintro rfl; exact hstep
  · rintro rfl; exact ⟨low32 v, hstep, BitVec.toNat_setWidth ..⟩
  · rintro rfl; exact hstep
  · rintro rfl; exact hstep
  · rintro rfl
    rw [hstep, performWriteReg_cmd, step_of_pending (s := { s with pending := _ }) rfl]
    rfl

/-- Settles O10: the value is `readReg`'s; the numbers are the register's own, `STATUS`, `LENB` and `CAP` by their
lemmas. -/
theorem hostRegisterRead : Obligations.HostRegisterRead := by
  intro s r rest hp
  refine ⟨readReg s r, step_of_pending hp, ?val, ?ofs, ?lo, ?hi, ?status, ?fcmd, ?cnt, ?len, ?lenb, ?rlen, ?pos, ?cap,
    readReg_zero⟩ <;> rintro rfl
  case val | lo | hi => rfl
  case status => exact readReg_status s
  case lenb => exact readReg_lenb s
  case cap => exact readReg_cap s
  case ofs | fcmd | cnt | len | rlen | pos => exact setWidth64_toNat _

/-- Settles O11: inside `MEM` the byte and only it, outside a free byte or nothing. -/
theorem memoryPort : Obligations.MemoryPort := by
  intro s a b rest
  refine ⟨fun hp h => ?_, fun hp h => ?_, fun hp h => ?_, fun hp h => ?_⟩
  · exact (step_of_pending hp).trans (performMemRd_inside (s := s.withPending rest) h)
  · exact ⟨_, (step_of_pending hp).trans (performMemRd_outside (s := s.withPending rest) h)⟩
  · refine ⟨writeByte s.mem a b, (step_of_pending hp).trans (performMemWr_inside (s := s.withPending rest) b h), ?_⟩
    exact ⟨by simp, fun x hx => by simp [hx]⟩
  · exact (step_of_pending hp).trans (performMemWr_outside (s := s.withPending rest) b h)

/-- Settles O20: modulo 16 `STATUS` reads `FCODE`. -/
theorem faultLineFollowsStatus : Obligations.FaultLineFollowsStatus := by
  intro s
  have hlow : (readReg s 5).toNat % 16 = s.fcode.toNat := by
    have := s.fcode.isLt
    rw [readReg_status]
    omega
  rw [hlow, faultLine, decide_eq_true_iff, Ne, ← BitVec.toNat_inj]
  rfl

/-! ## Hardware reset -/

/-- The state after hardware reset meets the invariants (R35, R40). -/
theorem powerOn_inv {cap : CapBytes} {m : List Host.Cell} (hcap : 1 ≤ cap.val) (hwf : memoryWf m)
    (hbelow : memoryBelow cap.val m) : (State.powerOn cap m).Inv where
  capPos := hcap
  lenLe := Nat.zero_le _
  posLe := Nat.zero_le _
  rlenLe := Nat.zero_le _
  fcodeLe := Nat.zero_le _
  fcmdZero := fun _ => rfl
  cntLe := Nat.zero_le _
  memWf := hwf
  memBelow := hbelow

/-- Settles O13: field by field, `CAP` by its lemma. -/
theorem hardwareReset : Obligations.HardwareReset := by
  intro cap m
  have hfault : faultLine (State.powerOn cap m) = false := by simp [faultLine]
  exact ⟨rfl, rfl, rfl, rfl, rfl, rfl, rfl, rfl, rfl, rfl, rfl, hfault, readReg_cap _, rfl⟩

/-- Settles O14: `State.reset` is the member with 16 bytes and the empty memory. -/
theorem resetMeetsInvariant : Obligations.ResetMeetsInvariant :=
  ⟨powerOn_inv (by decide) ⟨.nil, nofun⟩ nofun, fun _ _ => powerOn_inv⟩

end Sys2Proof.Machine

/-! What a command's effect changes: 32 effects are 12 kinds of update, each with the bounds it respects and the
writer tables it stands in (R21 to R32, R60).  The invariants of R35 and the writer tables follow by kind. -/

namespace Sys2Proof.Machine

/-- A memory that replaces the state's without losing the canonical form or growing beyond `MEM`. -/
structure MemoryKept (s : State) (m : List Host.Cell) : Prop where
  wf : memoryWf s.mem → memoryWf m
  below : memoryBelow s.capBytes.val s.mem → memoryBelow s.capBytes.val m

/-- The kinds of update a command's effect can be. -/
inductive Change (i : Instr) (s : State) : State → Prop where
  | softReset : i = .srst → Change i s s.softReset
  | created : i = .wnew → Change i s s.created
  | imported {b : Nat} : i = .wimp → b ≤ s.capBits → Change i s (s.setLen b)
  | opened {b : Nat} : writesRlen i = true → writesPos i = true → (s.len.toNat ≤ s.capBits → b ≤ s.capBits) →
      Change i s (s.openReader b)
  | sought : i = .rseek → s.ofs.toNat ≤ s.rlen.toNat → Change i s s.seek
  | padded {n : Nat} : writesLen i = true → writesCnt i = true →
      (s.len.toNat ≤ s.capBits → s.len.toNat + n ≤ s.capBits) → Change i s (s.padded n)
  | skipped {n : Nat} : writesPos i = true → writesCnt i = true → s.pos.toNat + n ≤ s.rlen.toNat →
      Change i s (s.skipped n)
  | written {m : List Host.Cell} {l n : Nat} : writesMem i = true → writesLen i = true → writesCnt i = true →
      MemoryKept s m → s.len.toNat ≤ l → (s.len.toNat ≤ s.capBits → l ≤ s.capBits) → n ≤ s.capBits →
      Change i s (s.written m l n)
  | peeked {v : Word64} {n : Nat} : writesVal i = true → writesCnt i = true → s.pos.toNat + n ≤ s.rlen.toNat →
      Change i s (s.peeked v n)
  | consumed {v : Word64} {n : Nat} : writesVal i = true → writesPos i = true → writesCnt i = true →
      s.pos.toNat + n ≤ s.rlen.toNat → Change i s (s.consumed v n)
  | peekedVar {v : Word64} {p : Nat} {tr : Bool} : writesVal i = true → writesCnt i = true → writesTrunc i = true →
      (s.pos.toNat ≤ s.rlen.toNat → p ≤ s.rlen.toNat) → Change i s (s.peekedVar v p tr)
  | consumedVar {v : Word64} {p : Nat} {tr : Bool} : writesVal i = true → writesPos i = true → writesCnt i = true →
      writesTrunc i = true → (s.pos.toNat ≤ s.rlen.toNat → p ≤ s.rlen.toNat) → Change i s (s.consumedVar v p tr)

variable {s t : State} {i : Instr}

theorem putField_kept {off n : Nat} (v : Nat) (h : off + n ≤ s.capBits) : MemoryKept s (putField s.mem off n v) :=
  ⟨fun hwf => putField_wf hwf .., fun hb => putField_below hb h v⟩

theorem putFields_kept {off : Nat} {bs : List Nat} (h : off + 8 * bs.length ≤ s.capBits) :
    MemoryKept s (putFields s.mem off bs) :=
  ⟨fun hwf => putFields_wf hwf .., fun hb => putFields_below hb h⟩

/-- A varint read ends within the bytes there were (R147). -/
theorem decodesTo_le {W acc p : Nat} {tr : Bool} (hd : decodesTo W s acc p tr) (h : s.pos.toNat ≤ s.rlen.toNat) :
    p ≤ s.rlen.toNat := by
  have := varDecLoop_end hd
  omega

/-- An appended field (R121, R125, R171). -/
theorem Change.appended {n v : Nat} (hm : writesMem i = true) (hl : writesLen i = true) (hc : writesCnt i = true)
    (h : s.len.toNat + n ≤ s.capBits) :
    Change i s (s.written (putField s.mem s.len.toNat n v) (s.len.toNat + n) n) :=
  .written hm hl hc (putField_kept v h) (by omega) (fun _ => h) (by omega)

/-- An appended varint (R142). -/
theorem Change.encoded {v : Nat} (hm : writesMem i = true) (hl : writesLen i = true) (hc : writesCnt i = true)
    (h : encodesTo s t v) : Change i s t := by
  obtain ⟨hcap, rfl⟩ := h
  exact .written hm hl hc (putFields_kept (by simpa using hcap)) (by omega) (fun _ => hcap) (by omega)

/-- Every effect is an update of one of the kinds. -/
theorem change_of_effect (h : Effect i s t) : Change i s t := by
  cases i with
  | srst => cases h; exact .softReset rfl
  | wnew => cases h; exact .created rfl
  | wimp => obtain ⟨hcap, rfl⟩ := h; exact .imported rfl hcap
  | ropen => cases h; exact .opened rfl rfl id
  | ropenb => cases h; exact .opened rfl rfl ceil8_le_capBits
  | rseek => obtain ⟨hofs, rfl⟩ := h; exact .sought rfl hofs
  | padb => cases h; exact .padded rfl rfl fun hlen => (add_padBits _).trans_le (ceil8_le_capBits hlen)
  | pad n => obtain ⟨-, hcap, rfl⟩ := h; exact .padded rfl rfl fun _ => hcap
  | rpadb => obtain ⟨hread, rfl⟩ := h; exact .skipped rfl rfl hread
  | rskip n => obtain ⟨-, hread, rfl⟩ := h; exact .skipped rfl rfl hread
  | wru n | wrs n | wrr => obtain ⟨-, hcap, rfl⟩ := h; exact .appended rfl rfl rfl hcap
  | wruat n =>
    obtain ⟨-, hcap, rfl⟩ := h
    exact .written rfl rfl rfl (putField_kept _ hcap) (by omega) (by omega) (by omega)
  | rdu n | rds n | rdr => obtain ⟨-, ⟨hread, -⟩, rfl⟩ := h; exact .consumed rfl rfl rfl hread
  | pku n | pks n | pkr => obtain ⟨-, ⟨hread, -⟩, rfl⟩ := h; exact .peeked rfl rfl hread
  | wvu32 | wvu64 | wvs32 | wvs64 => exact .encoded rfl rfl rfl h
  | rvu32 | rvu64 | rvs32 | rvs64 =>
    obtain ⟨acc, p, tr, hd, rfl⟩ := h
    exact .consumedVar rfl rfl rfl rfl (decodesTo_le hd)
  | pvu32 | pvu64 | pvs32 | pvs64 =>
    obtain ⟨acc, p, tr, hd, rfl⟩ := h
    exact .peekedVar rfl rfl rfl (decodesTo_le hd)

/-! ## The invariants -/

/-- The five codes (R27, R181 to R185). -/
theorem faultCode_le (f : FaultClass) : (faultCode f).toNat ≤ 5 := by cases f <;> decide

theorem faultCode_ne_zero (f : FaultClass) : faultCode f ≠ 0 := by cases f <;> decide

/-- Storing in a 32-bit register cuts a value, never raises it. -/
theorem word32_toNat_le {n b : Nat} (h : n ≤ b) : (word32 n).toNat ≤ b := by
  rw [word32_toNat]
  exact (Nat.mod_le _ _).trans h

/-- A fault record keeps the invariants: its code is one of the five (R180 to R186). -/
theorem recordFault_inv (h : s.Inv) (f : FaultClass) (w : Word32) : (s.recordFault f w).Inv :=
  { h with fcodeLe := faultCode_le f, fcmdZero := fun h0 => absurd h0 (faultCode_ne_zero f) }

theorem withPending_inv (h : s.Inv) (ts : List Transaction) : (s.withPending ts).Inv := { h with }

theorem withMem_inv (h : s.Inv) {m : List Host.Cell} (hm : MemoryKept s m) : (s.withMem m).Inv :=
  { h with memWf := hm.wf h.memWf, memBelow := hm.below h.memBelow }

/-- An update of any kind keeps the invariants (R35), by the bounds of its kind. -/
theorem Change.inv (hc : Change i s t) (h : s.Inv) : t.Inv := by
  have hlen := h.lenLe
  have hpos := h.posLe
  have hrlen := h.rlenLe
  cases hc with
  | softReset => exact { powerOn_inv h.capPos h.memWf h.memBelow with }
  | created =>
    exact { h with lenLe := Nat.zero_le _, memWf := zeroFill_wf h.memWf _, memBelow := zeroFill_below h.memBelow _ }
  | imported _ hb => exact { h with lenLe := word32_toNat_le hb }
  | opened _ _ hb => exact { h with posLe := Nat.zero_le _, rlenLe := word32_toNat_le (hb hlen) }
  | sought _ hofs => exact { h with posLe := hofs }
  | @padded n _ _ hn =>
    have hcnt : n ≤ s.capBits := (Nat.le_add_left ..).trans (hn hlen)
    exact { h with lenLe := word32_toNat_le (hn hlen), cntLe := word32_toNat_le hcnt }
  | @skipped n _ _ hn =>
    have hcnt : n ≤ s.capBits := by omega
    exact { h with posLe := word32_toNat_le hn, cntLe := word32_toNat_le hcnt }
  | written _ _ _ hm _ hl hn =>
    exact { withMem_inv h hm with lenLe := word32_toNat_le (hl hlen), cntLe := word32_toNat_le hn }
  | @peeked v n _ _ hn =>
    have hcnt : n ≤ s.capBits := by omega
    exact { h with cntLe := word32_toNat_le hcnt }
  | @consumed v n _ _ _ hn =>
    have hcnt : n ≤ s.capBits := by omega
    exact { h with posLe := word32_toNat_le hn, cntLe := word32_toNat_le hcnt }
  | @peekedVar v p tr _ _ _ hp =>
    have hcnt : p - s.pos.toNat ≤ s.capBits := (Nat.sub_le ..).trans ((hp hpos).trans hrlen)
    exact { h with cntLe := word32_toNat_le hcnt }
  | @consumedVar v p tr _ _ _ _ hp =>
    have hcnt : p - s.pos.toNat ≤ s.capBits := (Nat.sub_le ..).trans ((hp hpos).trans hrlen)
    exact { h with posLe := word32_toNat_le (hp hpos), cntLe := word32_toNat_le hcnt }

/-- A command keeps the invariants. -/
theorem exec_inv (h : s.Inv) (he : exec i s = .next t) : t.Inv := by
  rcases exec_next he with ⟨-, -, rfl⟩ | ⟨-, f, rfl⟩ | ⟨-, heff⟩
  · exact h
  · exact recordFault_inv h f _
  · exact (change_of_effect heff).inv h

theorem performCmd_inv {w : Word32} (h : s.Inv) (he : performCmd w s = .next t) : t.Inv := by
  cases hd : decode w with
  | ok i => exact exec_inv h (performCmd_of_decode hd ▸ he)
  | error e =>
    rw [performCmd_of_illegal hd, gated_eq_next, raise_eq_next] at he
    rcases he with ⟨-, rfl⟩ | ⟨-, rfl⟩
    · exact recordFault_inv h _ _
    · exact h

/-- A host transaction keeps the invariants. -/
theorem perform_inv {tr : Transaction} (h : s.Inv) (he : perform tr s = .next t) : t.Inv := by
  cases tr with
  | writeReg r v =>
    rw [perform] at he
    rcases writeReg_cases r with rfl | rfl | rfl | rfl | rfl | hr
    · cases he; exact { h with }
    · cases he; exact { h with }
    · cases he; exact { h with }
    · cases he; exact { h with }
    · exact performCmd_inv h he
    · rw [performWriteReg_readOnly v hr] at he; cases he; exact h
  | readReg r => cases he; exact { h with }
  | cmd w => exact performCmd_inv h he
  | memRd a =>
    rw [perform] at he
    rcases Nat.lt_or_ge a s.capBytes.val with ha | ha
    · rw [performMemRd_inside ha] at he; cases he; exact { h with }
    · rw [performMemRd_outside ha] at he; cases he; exact { h with }
  | memWr a b =>
    rw [perform] at he
    rcases Nat.lt_or_ge a s.capBytes.val with ha | ha
    · rw [performMemWr_inside b ha] at he
      cases he
      exact withMem_inv h ⟨fun hwf => writeByte_wf hwf a b, fun hb => writeByte_below hb ha b⟩
    · rw [performMemWr_outside b ha] at he; cases he; exact h

/-- Settles O15: by the kind of the next transaction, a command by the kind of its effect. -/
theorem stepKeepsInvariant : Obligations.StepKeepsInvariant := by
  intro s t h he
  cases hp : s.pending with
  | nil => rw [step_of_idle hp] at he; cases he; exact h
  | cons tr rest => rw [step_of_pending hp] at he; exact perform_inv (withPending_inv h rest) he

end Sys2Proof.Machine

/-! Who writes what, by the kind of a command's effect: a field is changed only by the kinds that name it. -/

namespace Sys2Proof.Machine

variable {s t : State} {i : Instr}

/-- A command that answers a next state leaves the state, records a fault, or makes an update of one of the kinds. -/
theorem exec_change (h : exec i s = .next t) : t = s ∨ (∃ f, t = s.recordFault f (encode i)) ∨ Change i s t :=
  (exec_next h).imp (fun ⟨_, _, ht⟩ => ht) (Or.imp And.right fun ⟨_, heff⟩ => change_of_effect heff)

/-! ## The data registers and the model's own record (R21) -/

theorem Change.operands_eq (hc : Change i s t) (h : i ≠ .srst) : t.ofs = s.ofs ∧ t.lo = s.lo ∧ t.hi = s.hi := by
  cases hc with
  | softReset hi => exact absurd hi h
  | _ => exact ⟨rfl, rfl, rfl⟩

theorem Change.val_eq (hc : Change i s t) (h : writesVal i = false) : t.val = s.val := by
  cases hc with
  | softReset hi => subst hi; cases h
  | peeked hv | consumed hv | peekedVar hv | consumedVar hv => cases hv.symm.trans h
  | _ => rfl

theorem Change.host_eq (hc : Change i s t) :
    t.capBytes = s.capBytes ∧ t.pending = s.pending ∧ t.replies = s.replies ∧ t.freeDraws = s.freeDraws := by
  cases hc with
  | _ => exact ⟨rfl, rfl, rfl, rfl⟩

/-! ## Cursors, `CNT`, `TRUNC`, `MEM` (R22, R24 to R26, R32, R60) -/

theorem Change.len_eq (hc : Change i s t) (h : writesLen i = false) : t.len = s.len := by
  cases hc with
  | softReset hi | created hi | imported hi => subst hi; cases h
  | padded hl | written _ hl => cases hl.symm.trans h
  | _ => rfl

theorem Change.rlen_eq (hc : Change i s t) (h : writesRlen i = false) : t.rlen = s.rlen := by
  cases hc with
  | softReset hi => subst hi; cases h
  | opened hr => cases hr.symm.trans h
  | _ => rfl

theorem Change.pos_eq (hc : Change i s t) (h : writesPos i = false) : t.pos = s.pos := by
  cases hc with
  | softReset hi | sought hi => subst hi; cases h
  | opened _ hp | skipped hp | consumed _ hp | consumedVar _ hp => cases hp.symm.trans h
  | _ => rfl

theorem Change.cnt_eq (hc : Change i s t) (h : writesCnt i = false) : t.cnt = s.cnt := by
  cases hc with
  | softReset hi => subst hi; cases h
  | padded _ hn | skipped _ hn | written _ _ hn | peeked _ hn | consumed _ _ hn | peekedVar _ hn
  | consumedVar _ _ hn => cases hn.symm.trans h
  | _ => rfl

theorem Change.trunc_eq (hc : Change i s t) (h : writesTrunc i = false) : t.trunc = s.trunc := by
  cases hc with
  | softReset hi => subst hi; cases h
  | peekedVar _ _ ht | consumedVar _ _ _ ht => cases ht.symm.trans h
  | _ => rfl

theorem Change.mem_eq (hc : Change i s t) (h : writesMem i = false) : t.mem = s.mem := by
  cases hc with
  | created hi => subst hi; cases h
  | written hm => cases hm.symm.trans h
  | _ => rfl

/-- `LEN` falls only by `SRST`, `WNEW` and `WIMP` (R22). -/
theorem Change.len_le (hc : Change i s t) (hlen : s.len.toNat ≤ s.capBits) (h1 : i ≠ .srst) (h2 : i ≠ .wnew)
    (h3 : i ≠ .wimp) : s.len.toNat ≤ t.len.toNat := by
  cases hc with
  | softReset hi => exact absurd hi h1
  | created hi => exact absurd hi h2
  | imported hi => exact absurd hi h3
  | padded _ _ hn => exact (Nat.le_add_right ..).trans (word32_toNat_of_le (hn hlen)).ge
  | written _ _ _ _ hl hcap => exact hl.trans (word32_toNat_of_le (hcap hlen)).ge
  | _ => exact le_rfl

/-! ## The statements -/

/-- Settles O21: an update changes them as its kind says, a fault record and the gate do not. -/
theorem dataRegisterWriters : Obligations.DataRegisterWriters := by
  intro s t i h
  rcases exec_change h with rfl | ⟨f, rfl⟩ | hc
  · exact ⟨fun _ => ⟨rfl, rfl, rfl⟩, fun _ => rfl, rfl, rfl, rfl, rfl⟩
  · exact ⟨fun _ => ⟨rfl, rfl, rfl⟩, fun _ => rfl, rfl, rfl, rfl, rfl⟩
  · exact ⟨hc.operands_eq, hc.val_eq, hc.host_eq⟩

/-- Settles O22: one lemma per register on the kinds of update. -/
theorem cursorAndFlagWriters : Obligations.CursorAndFlagWriters := by
  intro s t i h
  rcases exec_change h with rfl | ⟨f, rfl⟩ | hc
  · exact ⟨fun _ => rfl, fun _ => rfl, fun _ => rfl, fun _ => rfl, fun _ => rfl, fun _ => rfl⟩
  · exact ⟨fun _ => rfl, fun _ => rfl, fun _ => rfl, fun _ => rfl, fun _ => rfl, fun _ => rfl⟩
  · exact ⟨hc.len_eq, hc.rlen_eq, hc.pos_eq, hc.cnt_eq, hc.trunc_eq, hc.mem_eq⟩

/-- Settles O23. -/
theorem lengthGrowsMonotonically : Obligations.LengthGrowsMonotonically := by
  intro s t i hlen h1 h2 h3 h
  rcases exec_change h with rfl | ⟨f, rfl⟩ | hc
  · exact le_rfl
  · exact le_rfl
  · exact hc.len_le hlen h1 h2 h3

end Sys2Proof.Machine

/-! Every step from a state that meets the invariants completes (R38, R59): each shared operation answers where its
continuation does, and the tests before a memory access keep it within `MEM`. -/

namespace Sys2Proof.Machine

/-- A next state is answered: no stop, no refusal. -/
def Completes (r : Result) : Prop := ∃ t, r = .next t

theorem completes_next (t : State) : Completes (.next t) := ⟨t, rfl⟩

variable {s : State} {w : Word32} {body : Result}

theorem gated_completes (h : Completes body) : Completes (gated s body) := by
  unfold gated
  split
  · exact h
  · exact completes_next s

theorem counted_completes {max : Nat} {n : BitVec 7} (h : Completes body) : Completes (counted max n w s body) := by
  unfold counted
  split
  · exact h
  · exact completes_next _

theorem fits_completes {last : Nat} (h : last ≤ s.capBits → Completes body) : Completes (fits last w s body) := by
  rcases Nat.lt_or_ge s.capBits last with hlast | hlast
  · exact ⟨_, fits_eq_next.mpr (.inr ⟨hlast, rfl⟩)⟩
  · exact (fits_of_le hlast).symm ▸ h hlast

theorem remaining_completes {need : Nat} (h : s.pos.toNat + need ≤ s.rlen.toNat → Completes body) :
    Completes (remaining need w s body) := by
  rcases Nat.lt_or_ge s.rlen.toNat (s.pos.toNat + need) with hneed | hneed
  · exact ⟨_, remaining_eq_next.mpr (.inr ⟨hneed, rfl⟩)⟩
  · exact (remaining_of_le hneed).symm ▸ h hneed

theorem storeField_completes {off n v len : Nat} (h : off + n ≤ s.capBits) : Completes (storeField s off n v len) :=
  ⟨_, storeField_eq_next.mpr ⟨h, rfl⟩⟩

theorem appendField_completes {n v : Nat} : Completes (appendField s n v w) := fits_completes storeField_completes

theorem varEnc_completes {v : Nat} : Completes (varEnc v w s) := by
  rcases Nat.lt_or_ge s.capBits (s.len.toNat + 8 * varCount v) with h | h
  · exact ⟨_, varEnc_eq_next.mpr (.inr ⟨h, rfl⟩)⟩
  · exact ⟨_, varEnc_eq_next.mpr (.inl ⟨h, rfl⟩)⟩

/-- Whatever lies below `RLEN` lies in `MEM` (R35). -/
theorem fetchField_completes (hr : s.rlen.toNat ≤ s.capBits) {n : Nat} {k : Nat → Result}
    (h : ∀ f, Completes (k f)) : Completes (fetchField s n w k) :=
  remaining_completes fun hn => by rw [getBits_of_le (hn.trans hr)]; exact h _

theorem varDec_completes (hp : s.pos.toNat ≤ s.rlen.toNat) (hr : s.rlen.toNat ≤ s.capBits) {W : Nat}
    {k : Nat → Nat → Bool → Result} (h : ∀ acc p tr, Completes (k acc p tr)) : Completes (varDec W s k) := by
  obtain ⟨⟨acc, p, tr⟩, hd⟩ :=
    varDecLoop_isSome (W := W) (capBits := s.capBits) (m := s.mem) (avail := (s.rlen.toNat - s.pos.toNat) / 8)
      (p := s.pos.toNat) (j := 0) (acc := 0) (by omega)
  obtain ⟨t, ht⟩ := h acc p tr
  exact ⟨t, varDec_eq_next.mpr ⟨acc, p, tr, hd, ht⟩⟩

/-- Every command completes where the reader lies within `MEM`. -/
theorem exec_completes (hp : s.pos.toNat ≤ s.rlen.toNat) (hr : s.rlen.toNat ≤ s.capBits) (i : Instr) :
    Completes (exec i s) := by
  cases i with
  | srst => exact completes_next _
  | wnew | ropen | ropenb | padb => exact gated_completes (completes_next _)
  | wimp => exact gated_completes (fits_completes fun _ => completes_next _)
  | rseek =>
    refine gated_completes ?_
    split
    · exact completes_next _
    · exact completes_next _
  | pad n => exact gated_completes (counted_completes (fits_completes fun _ => completes_next _))
  | rpadb => exact gated_completes (remaining_completes fun _ => completes_next _)
  | rskip n => exact gated_completes (counted_completes (remaining_completes fun _ => completes_next _))
  | wru n | wrs n => exact gated_completes (counted_completes appendField_completes)
  | wruat n => exact gated_completes (counted_completes (fits_completes storeField_completes))
  | rdu n | pku n | rds n | pks n =>
    exact gated_completes (counted_completes (fetchField_completes hr fun _ => completes_next _))
  | wvu32 | wvu64 | wvs32 | wvs64 => exact gated_completes varEnc_completes
  | rvu32 | rvu64 | rvs32 | rvs64 | pvu32 | pvu64 | pvs32 | pvs64 =>
    exact gated_completes (varDec_completes hp hr fun _ _ _ => completes_next _)
  | wrr =>
    refine gated_completes ?_
    split
    · exact appendField_completes
    · exact completes_next _
  | rdr | pkr =>
    refine gated_completes ?_
    split
    · exact completes_next _
    · exact fetchField_completes hr fun _ => completes_next _

theorem performCmd_completes (h : s.Inv) (w : Word32) : Completes (performCmd w s) := by
  cases hd : decode w with
  | ok i => exact (performCmd_of_decode hd).symm ▸ exec_completes h.posLe h.rlenLe i
  | error e => exact (performCmd_of_illegal hd).symm ▸ gated_completes (completes_next _)

theorem perform_completes (h : s.Inv) (tr : Transaction) : Completes (perform tr s) := by
  cases tr with
  | writeReg r v =>
    rcases writeReg_cases r with rfl | rfl | rfl | rfl | rfl | hr
    · exact completes_next _
    · exact completes_next _
    · exact completes_next _
    · exact completes_next _
    · exact performCmd_completes h _
    · exact ⟨s, performWriteReg_readOnly v hr⟩
  | readReg r => exact completes_next _
  | cmd w => exact performCmd_completes h w
  | memRd a =>
    rcases Nat.lt_or_ge a s.capBytes.val with ha | ha
    · exact ⟨_, performMemRd_inside ha⟩
    · exact ⟨_, performMemRd_outside ha⟩
  | memWr a b =>
    rcases Nat.lt_or_ge a s.capBytes.val with ha | ha
    · exact ⟨_, performMemWr_inside b ha⟩
    · exact ⟨_, performMemWr_outside b ha⟩

/-- Settles O16: by the kind of the next transaction. -/
theorem stepAlwaysCompletes : Obligations.StepAlwaysCompletes := by
  intro s h
  cases hp : s.pending with
  | nil => exact ⟨s, step_of_idle hp⟩
  | cons tr rest => exact (step_of_pending hp).symm ▸ perform_completes (withPending_inv h rest) tr

end Sys2Proof.Machine

/-! What a command does not read (R21, R223).  A patch overwrites some of the data registers; a command that neither
reads nor writes them runs on the patched state as on the unpatched one, and the patch stays. -/

namespace Sys2Proof.Machine

/-- New contents for some of the data registers. -/
structure DataPatch where
  val : Option Word64 := none
  ofs : Option Word32 := none
  lo : Option Word64 := none
  hi : Option Word64 := none

namespace DataPatch

/-- The state with the data registers the patch names overwritten. -/
def apply (p : DataPatch) (s : State) : State :=
  { s with val := p.val.getD s.val, ofs := p.ofs.getD s.ofs, lo := p.lo.getD s.lo, hi := p.hi.getD s.hi }

/-- The patch on what a step answers. -/
def onNext (p : DataPatch) : Result → Result
  | .next t => .next (p.apply t)
  | .fault r => .fault r
  | .refused r => .refused r

variable (p : DataPatch) {s : State} {w : Word32} {body body' : Result}

@[simp] theorem onNext_next (t : State) : p.onNext (.next t) = .next (p.apply t) := rfl

theorem apply_ofs (s : State) (h : p.ofs = none) : (p.apply s).ofs = s.ofs := by simp [apply, h]

theorem apply_lo (s : State) (h : p.lo = none) : (p.apply s).lo = s.lo := by simp [apply, h]

theorem apply_hi (s : State) (h : p.hi = none) : (p.apply s).hi = s.hi := by simp [apply, h]

theorem seek_apply (h : p.ofs = none) : (p.apply s).seek = p.apply s.seek := by simp [apply, State.seek, h]

/-! A patch that keeps `VAL` commutes with the updates that write it. -/

section

variable (h : p.val = none) (v : Word64) (n : Nat) (tr : Bool)
include h

theorem next_peeked : .next ((p.apply s).peeked v n) = p.onNext (.next (s.peeked v n)) := by
  simp [apply, State.peeked, h]

theorem next_consumed : .next ((p.apply s).consumed v n) = p.onNext (.next (s.consumed v n)) := by
  simp [apply, State.consumed, h]

theorem next_peekedVar : .next ((p.apply s).peekedVar v n tr) = p.onNext (.next (s.peekedVar v n tr)) := by
  simp [apply, State.peekedVar, h]

theorem next_consumedVar : .next ((p.apply s).consumedVar v n tr) = p.onNext (.next (s.consumedVar v n tr)) := by
  simp [apply, State.consumedVar, h]

end

/-! The shared operations read no data register: each commutes with a patch when its continuation does. -/

theorem ite_onNext {c : Prop} [Decidable c] {a a' b b' : Result} (ha : a' = p.onNext a) (hb : b' = p.onNext b) :
    (if c then a' else b') = p.onNext (if c then a else b) := by
  rw [ha, hb, apply_ite p.onNext]

theorem gated_onNext (h : body' = p.onNext body) : gated (p.apply s) body' = p.onNext (gated s body) :=
  p.ite_onNext h rfl

theorem counted_onNext {max : Nat} {n : BitVec 7} (h : body' = p.onNext body) :
    counted max n w (p.apply s) body' = p.onNext (counted max n w s body) := p.ite_onNext h rfl

theorem fits_onNext {last : Nat} (h : body' = p.onNext body) :
    fits last w (p.apply s) body' = p.onNext (fits last w s body) := p.ite_onNext rfl h

theorem remaining_onNext {need : Nat} (h : body' = p.onNext body) :
    remaining need w (p.apply s) body' = p.onNext (remaining need w s body) := p.ite_onNext rfl h

theorem storeField_onNext (off n v len : Nat) :
    storeField (p.apply s) off n v len = p.onNext (storeField s off n v len) := by
  have hmem : putBits (p.apply s).capBits (p.apply s).mem off n v = putBits s.capBits s.mem off n v := rfl
  unfold storeField
  rw [hmem]
  cases putBits s.capBits s.mem off n v <;> rfl

theorem appendField_onNext (n v : Nat) : appendField (p.apply s) n v w = p.onNext (appendField s n v w) :=
  p.fits_onNext (p.storeField_onNext ..)

theorem fetchField_onNext {n : Nat} {k k' : Nat → Result} (h : ∀ f, k' f = p.onNext (k f)) :
    fetchField (p.apply s) n w k' = p.onNext (fetchField s n w k) := by
  have hmem : getBits (p.apply s).capBits (p.apply s).mem (p.apply s).pos.toNat n =
    getBits s.capBits s.mem s.pos.toNat n := rfl
  refine p.remaining_onNext ?_
  rw [hmem]
  cases getBits s.capBits s.mem s.pos.toNat n with
  | none => rfl
  | some f => exact h f

theorem varEnc_onNext (v : Nat) : varEnc v w (p.apply s) = p.onNext (varEnc v w s) := by
  have hmem : putBytes (p.apply s).capBits (p.apply s).mem (p.apply s).len.toNat (varBytes v) =
    putBytes s.capBits s.mem s.len.toNat (varBytes v) := rfl
  refine p.fits_onNext ?_
  rw [hmem]
  cases putBytes s.capBits s.mem s.len.toNat (varBytes v) <;> rfl

theorem varDec_onNext {W : Nat} {k k' : Nat → Nat → Bool → Result}
    (h : ∀ acc q tr, k' acc q tr = p.onNext (k acc q tr)) :
    varDec W (p.apply s) k' = p.onNext (varDec W s k) := by
  have hmem : varDecLoop W (p.apply s).capBits (p.apply s).mem
      (((p.apply s).rlen.toNat - (p.apply s).pos.toNat) / 8) (p.apply s).pos.toNat 0 0 =
    varDecLoop W s.capBits s.mem ((s.rlen.toNat - s.pos.toNat) / 8) s.pos.toNat 0 0 := rfl
  unfold varDec
  rw [hmem]
  cases varDecLoop W s.capBits s.mem ((s.rlen.toNat - s.pos.toNat) / 8) s.pos.toNat 0 0 with
  | none => rfl
  | some r => exact h r.1 r.2.1 r.2.2

/-- The patch overwrites nothing the command reads or writes of the data registers (R21). -/
structure Invisible (i : Instr) (s : State) : Prop where
  notReset : i ≠ .srst
  ofs : readsOfs i = true → p.ofs = none
  lo : readsBounds i = true → p.lo = none
  hi : readsBounds i = true → p.hi = none
  valWritten : writesVal i = true → p.val = none
  valRead : (p.apply s).val.toNat % 2 ^ valBitsRead i = s.val.toNat % 2 ^ valBitsRead i

end DataPatch

/-- Words of which all bits are read are equal. -/
theorem val_eq_of_low64 {v v' : Word64} (h : v.toNat % 2 ^ 64 = v'.toNat % 2 ^ 64) : v = v' := by
  rw [Nat.mod_eq_of_lt v.isLt, Nat.mod_eq_of_lt v'.isLt] at h
  exact BitVec.eq_of_toNat_eq h

theorem low32_eq_of_low32 {v v' : Word64} (h : v.toNat % 2 ^ 32 = v'.toNat % 2 ^ 32) : low32 v = low32 v' :=
  BitVec.eq_of_toNat_eq (by rwa [low32, low32, BitVec.toNat_setWidth, BitVec.toNat_setWidth])

/-- A command runs on the patched state as on the unpatched one. -/
theorem exec_apply {p : DataPatch} {i : Instr} {s : State} (hp : p.Invisible i s) :
    exec i (p.apply s) = p.onNext (exec i s) := by
  obtain ⟨hreset, hofs, hlo, hhi, hwritten, hread⟩ := hp
  cases i with
  | srst => exact absurd rfl hreset
  | wnew | ropen | ropenb | padb => exact p.gated_onNext rfl
  | wimp =>
    refine p.gated_onNext ?_
    rw [p.apply_ofs s (hofs rfl)]
    exact p.fits_onNext rfl
  | rseek =>
    refine p.gated_onNext ?_
    rw [p.apply_ofs s (hofs rfl), p.seek_apply (hofs rfl)]
    exact p.ite_onNext rfl rfl
  | pad n => exact p.gated_onNext (p.counted_onNext (p.fits_onNext rfl))
  | rpadb => exact p.gated_onNext (p.remaining_onNext rfl)
  | rskip n => exact p.gated_onNext (p.counted_onNext (p.remaining_onNext rfl))
  | wru n =>
    have hlow : lowBits (p.apply s).val n.toNat = lowBits s.val n.toNat := hread
    refine p.gated_onNext (p.counted_onNext ?_)
    rw [hlow]
    exact p.appendField_onNext ..
  | wruat n =>
    have hlow : lowBits (p.apply s).val n.toNat = lowBits s.val n.toNat := hread
    refine p.gated_onNext (p.counted_onNext ?_)
    rw [hlow, p.apply_ofs s (hofs rfl)]
    exact p.fits_onNext (p.storeField_onNext ..)
  | wrs n =>
    refine p.gated_onNext (p.counted_onNext ?_)
    rw [low32_eq_of_low32 hread]
    exact p.appendField_onNext ..
  | rdu n | rds n =>
    exact p.gated_onNext (p.counted_onNext (p.fetchField_onNext fun _ => p.next_consumed (hwritten rfl) ..))
  | pku n | pks n =>
    exact p.gated_onNext (p.counted_onNext (p.fetchField_onNext fun _ => p.next_peeked (hwritten rfl) ..))
  | wvu32 | wvs32 =>
    refine p.gated_onNext ?_
    rw [low32_eq_of_low32 hread]
    exact p.varEnc_onNext _
  | wvu64 | wvs64 =>
    refine p.gated_onNext ?_
    rw [val_eq_of_low64 hread]
    exact p.varEnc_onNext _
  | rvu32 | rvu64 | rvs32 | rvs64 =>
    exact p.gated_onNext (p.varDec_onNext fun _ _ _ => p.next_consumedVar (hwritten rfl) ..)
  | pvu32 | pvu64 | pvs32 | pvs64 =>
    exact p.gated_onNext (p.varDec_onNext fun _ _ _ => p.next_peekedVar (hwritten rfl) ..)
  | wrr =>
    refine p.gated_onNext ?_
    rw [p.apply_lo s (hlo rfl), p.apply_hi s (hhi rfl), val_eq_of_low64 hread]
    exact p.ite_onNext (p.appendField_onNext ..) rfl
  | rdr =>
    refine p.gated_onNext ?_
    rw [p.apply_lo s (hlo rfl), p.apply_hi s (hhi rfl)]
    exact p.ite_onNext rfl (p.fetchField_onNext fun _ => p.next_consumed (hwritten rfl) ..)
  | pkr =>
    refine p.gated_onNext ?_
    rw [p.apply_lo s (hlo rfl), p.apply_hi s (hhi rfl)]
    exact p.ite_onNext rfl (p.fetchField_onNext fun _ => p.next_peeked (hwritten rfl) ..)

/-- The next state of a command on the patched state is the patched next state. -/
theorem exec_apply_next {p : DataPatch} {i : Instr} {s t : State} (hp : p.Invisible i s) (h : exec i s = .next t) :
    exec i (p.apply s) = .next (p.apply t) := by
  rw [exec_apply hp, h, p.onNext_next]

/-! The patches of the statements. -/

section

variable {i : Instr} {s : State}

theorem invisible_ofs (o : Word32) (hi : i ≠ .srst) (h : readsOfs i = false) :
    DataPatch.Invisible { ofs := some o } i s where
  notReset := hi
  ofs hr := by cases hr.symm.trans h
  lo _ := rfl
  hi _ := rfl
  valWritten _ := rfl
  valRead := rfl

theorem invisible_bounds (l h : Word64) (hi : i ≠ .srst) (hb : readsBounds i = false) :
    DataPatch.Invisible { lo := some l, hi := some h } i s where
  notReset := hi
  ofs _ := rfl
  lo hr := by cases hr.symm.trans hb
  hi hr := by cases hr.symm.trans hb
  valWritten _ := rfl
  valRead := rfl

theorem invisible_val {v : Word64} (hw : writesVal i = false)
    (hlow : v.toNat % 2 ^ valBitsRead i = s.val.toNat % 2 ^ valBitsRead i) :
    DataPatch.Invisible { val := some v } i s where
  notReset := by rintro rfl; cases hw
  ofs _ := rfl
  lo _ := rfl
  hi _ := rfl
  valWritten hr := by cases hr.symm.trans hw
  valRead := hlow

end

/-- A reading command overwrites `VAL` whole: from any `VAL` it reaches the same state (R21, R223). -/
theorem effect_setVal {i : Instr} {s t : State} (hw : writesVal i = true) (v : Word64) (h : Effect i s t) :
    Effect i (s.setVal v) t := by
  cases i with
  | srst | rdu n | pku n | rds n | pks n | rvu32 | rvu64 | rvs32 | rvs64 | pvu32 | pvu64 | pvs32 | pvs64
  | rdr | pkr => exact h
  | _ => cases hw

/-- Settles O25: the registers a command does not read by the patch lemma, `VAL` by the effects. -/
theorem unlistedRegistersNotRead : Obligations.UnlistedRegistersNotRead := by
  intro s t i v l h o hi he
  refine ⟨fun hofs => ?_, fun hb => ?_, fun hw h0 ht => ?_⟩
  · exact exec_apply_next (invisible_ofs o hi hofs) he
  · exact exec_apply_next (invisible_bounds l h hi hb) he
  · rcases exec_next he with ⟨-, hf, -⟩ | ⟨-, f, rfl⟩ | ⟨-, heff⟩
    · exact absurd h0 hf
    · exact absurd ht (faultCode_ne_zero f)
    · exact exec_of_effect (.inr h0) (effect_setVal hw v heff)

/-- Settles O26: a patch of `VAL` that keeps the bits the command reads. -/
theorem upperBitsOfValIgnored : Obligations.UpperBitsOfValIgnored :=
  fun _ _ _ _ hw hlow he => exec_apply_next (invisible_val hw hlow) he

end Sys2Proof.Machine

/-! The memory's statements (20_memory.md): the primitives `PutBits` and `GetBits` (R53, R54), one little-endian bit
stream (R52), the byte-by-byte construction (R55), the frame rule for writes (R60). -/

namespace Sys2Proof.Machine

/-! ## The primitives on the bit stream -/

/-- Settles O30: the split of the field, with each part's bound. -/
theorem fieldSplitsIntoParts : Obligations.FieldSplitsIntoParts := fun _ m off n k h =>
  ⟨fieldAt m off n, fieldAt m (off + n) k, getBits_of_le (by omega), getBits_of_le (by omega), fieldAt_lt m off n,
    fieldAt_lt m (off + n) k, (getBits_of_le h).trans (congrArg some (fieldAt_add m off n k))⟩

/-- Settles O27: what a field write does to the stream bits, the bytes and the fields. -/
theorem putBitsThenGetBits : Obligations.PutBitsThenGetBits := by
  intro capBits m off n v _ h
  refine ⟨putField m off n v, putBits_of_le h, streamBit_putField m off n v,
    fun a ha => readByte_putField_outside m off n v ha, ?_, fun off' n' h' hd => ?_⟩
  · rw [getBits_of_le h, fieldAt_putField_same]
  · rw [getBits_of_le h', getBits_of_le h', fieldAt_putField_disjoint m v hd]

/-- A write of `n + k` bits is the write of the low `n` followed by the write of the rest (R52, R55). -/
theorem streamBit_putField_add (m : List Host.Cell) (off n k v j : Nat) :
    streamBit (putField (putField m off n v) (off + n) k (v >>> n)) j = streamBit (putField m off (n + k) v) j := by
  simp only [streamBit_putField, Nat.testBit_shiftRight]
  by_cases hhigh : off + n ≤ j ∧ j < off + n + k
  · rw [if_pos hhigh, if_pos (by omega), show n + (j - (off + n)) = j - off by omega]
  · simp only [if_neg hhigh, show off ≤ j ∧ j < off + (n + k) ↔ off ≤ j ∧ j < off + n by omega]

/-! ## Part of one byte (R55) -/

/-- The low `n` bits of `v` as a byte, the `v'` of `PutByte` (R55). -/
def lowByte (n v : Nat) : Byte := BitVec.ofNat 8 v &&& maskByte n

/-- The byte `b` with the low `n` bits of `v` at bit `u`, cut off at the byte's end: what `PutByte` stores (R55). -/
def insertBits (b : Byte) (u n v : Nat) : Byte := (b &&& ~~~(maskByte n <<< u)) ||| (lowByte n v <<< u)

theorem getLsbD_maskByte (n i : Nat) : (maskByte n).getLsbD i = decide (i < 8 ∧ i < n) := by
  rw [maskByte, BitVec.getLsbD_ofNat, Nat.testBit_two_pow_sub_one, Bool.decide_and]

theorem getLsbD_lowByte (n v i : Nat) : (lowByte n v).getLsbD i = (decide (i < 8 ∧ i < n) && v.testBit i) := by
  rw [lowByte, BitVec.getLsbD_and, getLsbD_maskByte, BitVec.getLsbD_ofNat]
  by_cases hi : i < 8 <;> simp [hi, Bool.and_comm]

theorem getLsbD_insertBits (b : Byte) (u n v : Nat) {i : Nat} (hi : i < 8) :
    (insertBits b u n v).getLsbD i = if u ≤ i ∧ i < u + n then v.testBit (i - u) else b.getLsbD i := by
  simp only [insertBits, BitVec.getLsbD_or, BitVec.getLsbD_and, BitVec.getLsbD_not, BitVec.getLsbD_shiftLeft,
    getLsbD_maskByte, getLsbD_lowByte, hi]
  by_cases hu : i < u
  · simp [hu, show ¬u ≤ i by omega]
  · by_cases hn : i - u < n
    · simp [hu, hn, show i - u < 8 by omega, show u ≤ i ∧ i < u + n by omega]
    · simp [hu, hn, show ¬i < u + n by omega]

/-- A straddling `PutByte` keeps the first byte's low `u` bits: all that its `n` bits from `u` leave. -/
theorem insertBits_upper (b : Byte) {u n : Nat} (v : Nat) (hn : 8 ≤ u + n) :
    (b &&& maskByte u) ||| (lowByte n v <<< u) = insertBits b u n v := by
  have hmask : maskByte u = ~~~(maskByte n <<< u) := BitVec.eq_of_getLsbD_eq fun i hi => by
    simp only [BitVec.getLsbD_not, BitVec.getLsbD_shiftLeft, getLsbD_maskByte, hi]
    by_cases hu : i < u
    · simp [hu]
    · simp [hu, show i - u < 8 ∧ i - u < n by omega]
  rw [insertBits, hmask]

/-- A straddling `PutByte` puts what is left of its bits at the bottom of the next byte. -/
theorem insertBits_lower (b : Byte) {n f : Nat} (v : Nat) (hn : n ≤ 8) :
    (b &&& ~~~maskByte (n - f)) ||| (lowByte n v >>> f) = insertBits b 0 (n - f) (v >>> f) := by
  have hlow : lowByte n v >>> f = lowByte (n - f) (v >>> f) := BitVec.eq_of_getLsbD_eq fun i _ => by
    rw [BitVec.getLsbD_ushiftRight, getLsbD_lowByte, getLsbD_lowByte, Nat.testBit_shiftRight]
    exact congrArg (· && _) (decide_eq_decide.mpr (by omega))
  rw [insertBits, hlow, BitVec.shiftLeft_zero, BitVec.shiftLeft_zero]

theorem streamBit_writeByte (m : List Host.Cell) (a : Nat) (b : Byte) (k : Nat) :
    streamBit (writeByte m a b) k = if k / 8 = a then b.getLsbD (k % 8) else streamBit m k := by
  unfold streamBit
  rw [readByte_writeByte, apply_ite (BitVec.getLsbD · (k % 8))]

/-- Inserting bits into the byte at `a` sets the stream bits from `8 * a + u` up to the byte's end, no other. -/
theorem streamBit_insertBits (m : List Host.Cell) (a u n v k : Nat) :
    streamBit (writeByte m a (insertBits (readByte m a) u n v)) k =
      if 8 * a + u ≤ k ∧ k < 8 * a + u + n ∧ k < 8 * a + 8 then v.testBit (k - (8 * a + u)) else streamBit m k := by
  rw [streamBit_writeByte]
  by_cases ha : k / 8 = a
  · rw [if_pos ha, getLsbD_insertBits _ _ _ _ (by omega), getLsbD_readByte _ _ (by omega),
      show 8 * a + k % 8 = k by omega, show k % 8 - u = k - (8 * a + u) by omega]
    exact if_congr (by omega) rfl rfl
  · rw [if_neg ha, if_neg (by omega)]

/-! ## `PutByte` and `GetByte` (R55) -/

/-- `PutByte` inside one byte. -/
theorem putByte_within (m : List Host.Cell) {off n : Nat} (v : Nat) (h : n ≤ 8 - off % 8) :
    putByte m off n v = writeByte m (off / 8) (insertBits (readByte m (off / 8)) (off % 8) n v) :=
  if_pos h

/-- `PutByte` across a byte boundary. -/
theorem putByte_across (m : List Host.Cell) {off n : Nat} (v : Nat) (hn : n ≤ 8) (h : ¬n ≤ 8 - off % 8) :
    ∃ m', m' = writeByte m (off / 8) (insertBits (readByte m (off / 8)) (off % 8) n v) ∧
      putByte m off n v = writeByte m' (off / 8 + 1)
        (insertBits (readByte m' (off / 8 + 1)) 0 (n - (8 - off % 8)) (v >>> (8 - off % 8))) := by
  refine ⟨_, rfl, (if_neg h).trans ?_⟩
  simp only [← insertBits_upper _ v (show 8 ≤ off % 8 + n by omega), ← insertBits_lower _ v hn]
  rfl

/-- `PutByte` sets its own stream bits and no others. -/
theorem streamBit_putByte (m : List Host.Cell) (off v k : Nat) {n : Nat} (hn : n ≤ 8) :
    streamBit (putByte m off n v) k =
      if off ≤ k ∧ k < off + n then v.testBit (k - off) else streamBit m k := by
  have hoff : 8 * (off / 8) + off % 8 = off := Nat.div_add_mod off 8
  by_cases h : n ≤ 8 - off % 8
  · rw [putByte_within m v h, streamBit_insertBits, hoff]
    exact if_congr (by omega) rfl rfl
  · obtain ⟨m', hm', hput⟩ := putByte_across m v hn h
    rw [hput, streamBit_insertBits, hm', streamBit_insertBits, hoff, Nat.testBit_shiftRight]
    by_cases hnext : 8 * (off / 8) + 8 ≤ k ∧ k < off + n
    · rw [if_pos (by omega), if_pos (by omega),
        show 8 - off % 8 + (k - (8 * (off / 8 + 1) + 0)) = k - off by omega]
    · rw [if_neg (by omega)]
      exact if_congr (by omega) rfl rfl

/-- `GetByte` returns the `n` stream bits from `off` on. -/
theorem getLsbD_getByte (m : List Host.Cell) (off : Nat) {n : Nat} (hn : n ≤ 8) (i : Nat) :
    (getByte m off n).getLsbD i = (decide (i < n) && streamBit m (off + i)) := by
  have hoff : 8 * (off / 8) + off % 8 = off := Nat.div_add_mod off 8
  have hfirst (hi : off % 8 + i < 8) : (readByte m (off / 8)).getLsbD (off % 8 + i) = streamBit m (off + i) := by
    rw [getLsbD_readByte _ _ hi, ← Nat.add_assoc, hoff]
  have hmask : (maskByte n).getLsbD i = decide (i < n) := by
    rw [getLsbD_maskByte]
    exact decide_eq_decide.mpr (by omega)
  by_cases h : n ≤ 8 - off % 8
  · rw [show getByte m off n = _ from if_pos h, BitVec.getLsbD_and, BitVec.getLsbD_ushiftRight, hmask, Bool.and_comm]
    by_cases hi : i < n
    · rw [hfirst (by omega)]
    · simp [hi]
  · rw [show getByte m off n = _ from if_neg h, BitVec.getLsbD_and, BitVec.getLsbD_or, BitVec.getLsbD_ushiftRight,
      BitVec.getLsbD_shiftLeft, hmask, Bool.and_comm]
    by_cases hi : off % 8 + i < 8
    · simp [hfirst hi, show i < 8 - off % 8 by omega]
    · by_cases hin : i < n
      · rw [BitVec.getLsbD_of_ge _ _ (Nat.le_of_not_lt hi), getLsbD_readByte _ _ (by omega),
          show 8 * (off / 8 + 1) + (i - (8 - off % 8)) = off + i by omega]
        simp [show i < 8 by omega, show ¬i < 8 - off % 8 by omega]
      · simp [hin]

theorem toNat_getByte (m : List Host.Cell) (off : Nat) {n : Nat} (hn : n ≤ 8) :
    (getByte m off n).toNat = fieldAt m off n :=
  Nat.eq_of_testBit_eq fun i => by rw [BitVec.testBit_toNat, getLsbD_getByte m off hn, testBit_fieldAt]

/-! ## The byte form of `PutBits` and `GetBits` (R55) -/

theorem streamBit_putWholeBytes (m : List Host.Cell) (off v k j : Nat) :
    streamBit (putWholeBytes m off v k) j = streamBit (putField m off (8 * k) v) j := by
  induction k with
  | zero => rfl
  | succ k ih =>
    rw [putWholeBytes, streamBit_putByte _ _ _ _ le_rfl, ih, Nat.mul_succ, ← streamBit_putField_add,
      streamBit_putField _ _ 8]

theorem streamBit_putFieldByBytes (m : List Host.Cell) (off n v j : Nat) :
    streamBit (putFieldByBytes m off n v) j = streamBit (putField m off n v) j := by
  have hn : 8 * (n / 8) + n % 8 = n := Nat.div_add_mod n 8
  rw [putFieldByBytes]
  split
  · rename_i h
    rw [streamBit_putWholeBytes, show 8 * (n / 8) = n by omega]
  · rw [streamBit_putByte _ _ _ _ (by omega), streamBit_putWholeBytes]
    conv_rhs => rw [← hn, ← streamBit_putField_add, streamBit_putField _ _ (n % 8)]

theorem getWholeBytes_eq_fieldAt (m : List Host.Cell) (off k : Nat) :
    getWholeBytes m off k = fieldAt m off (8 * k) := by
  induction k with
  | zero => rfl
  | succ k ih =>
    rw [getWholeBytes, ih, toNat_getByte _ _ le_rfl, Nat.shiftLeft_eq, Nat.mul_comm (fieldAt _ _ _), ← fieldAt_add,
      Nat.mul_succ]

theorem fieldByBytes_eq_fieldAt (m : List Host.Cell) (off n : Nat) : fieldByBytes m off n = fieldAt m off n := by
  rw [fieldByBytes, getWholeBytes_eq_fieldAt, toNat_getByte _ _ (by omega), Nat.shiftLeft_eq,
    Nat.mul_comm (fieldAt _ _ _), ← fieldAt_add, Nat.div_add_mod]

/-- Settles O28: each form sets and returns the same stream bits, and the two halves of a write set those of the
whole. -/
theorem byteFormEqualsBitForm : Obligations.ByteFormEqualsBitForm := by
  intro m off n v _
  refine ⟨fun a => ?_, fieldByBytes_eq_fieldAt m off n, fun h a => ?_⟩
  · exact readByte_eq_of_streamBit fun i _ => streamBit_putFieldByBytes m off n v _
  · rw [putField_mod]
    conv_rhs => rw [← Nat.add_sub_of_le h.le]
    exact readByte_eq_of_streamBit fun i _ => streamBit_putField_add m off 32 (n - 32) v _

/-! ## The frame rule for writes (R60) -/

section

variable {s t : State} {i : Instr}

/-- An append of `n` bits that fits, in a memory that keeps every other stream bit, changes none outside
`[LEN, new LEN)`. -/
theorem written_frame {m : List Host.Cell} {n c k : Nat} (hcap : s.len.toNat + n ≤ s.capBits)
    (hm : ¬(s.len.toNat ≤ k ∧ k < s.len.toNat + n) → streamBit m k = streamBit s.mem k)
    (hk : ¬(s.len.toNat ≤ k ∧ k < (s.written m (s.len.toNat + n) c).len.toNat)) :
    streamBit (s.written m (s.len.toNat + n) c).mem k = streamBit s.mem k := by
  rw [written_len, word32_toNat_of_le hcap] at hk
  exact hm hk

/-- An appended varint (R142). -/
theorem encodesTo_frame {v k : Nat} (h : encodesTo s t v) (hk : ¬(s.len.toNat ≤ k ∧ k < t.len.toNat)) :
    streamBit t.mem k = streamBit s.mem k := by
  obtain ⟨hcap, rfl⟩ := h
  exact written_frame hcap (fun hout => by rw [streamBit_putFields, varBytes_length, if_neg hout]) hk

theorem appends_frame (ha : appends i = true) (h : Effect i s t) {k : Nat}
    (hk : ¬(s.len.toNat ≤ k ∧ k < t.len.toNat)) : streamBit t.mem k = streamBit s.mem k := by
  cases i with
  | wru | wrs | wrr =>
    obtain ⟨-, hcap, rfl⟩ := h
    exact written_frame hcap (fun hout => by rw [streamBit_putField, if_neg hout]) hk
  | wvu32 | wvu64 | wvs32 | wvs64 => exact encodesTo_frame h hk
  | _ => cases ha

theorem wruat_frame {n : BitVec 7} (h : Effect (.wruat n) s t) {k : Nat}
    (hk : ¬(s.ofs.toNat ≤ k ∧ k < s.ofs.toNat + n.toNat)) : streamBit t.mem k = streamBit s.mem k := by
  obtain ⟨-, -, rfl⟩ := h
  rw [written_mem, streamBit_putField, if_neg hk]

/-- `WNEW` zeroes every bit of the memory (R101). -/
theorem streamBit_created {k : Nat} (hk : k < s.capBits) : streamBit s.created.mem k = false := by
  rw [State.capBits] at hk
  rw [streamBit, created_mem, readByte_zeroFill, if_pos (by omega)]
  exact BitVec.getLsbD_zero

end

/-- Settles O24: a command that does nothing or records a fault keeps `MEM`; an effect keeps what its lemma says. -/
theorem memoryFrame : Obligations.MemoryFrame := by
  intro s t i _ h
  have hmem : t.mem = s.mem ∨ Effect i s t := by
    rcases exec_next h with ⟨_, _, rfl⟩ | ⟨_, f, rfl⟩ | ⟨_, heff⟩
    · exact .inl rfl
    · exact .inl rfl
    · exact .inr heff
  refine ⟨fun ha k hk => ?_, ?_, ?_, fun hw a => ?_⟩
  · rcases hmem with hm | heff
    · rw [hm]
    · exact appends_frame ha heff hk
  · rintro n rfl k hk
    rcases hmem with hm | heff
    · rw [hm]
    · exact wruat_frame heff hk
  · rintro rfl h0 k hk
    cases (exec_of_effect (i := .wnew) (.inr h0) rfl).symm.trans h
    exact streamBit_created hk
  · obtain ⟨-, -, -, -, -, hm⟩ := cursorAndFlagWriters s t i h
    rw [hm hw]

end Sys2Proof.Machine

/-! The encoding (30_encoding.md): a word decodes to a command exactly when it is that command's word (R81, R83), the
three classes of words (R85, R86, R88), and what the prologue does with each of them (R84 to R86). -/

namespace Sys2Proof.Machine

/-! ## Decoding undoes encoding (R81, R83) -/

theorem formatF0_eq_ok {n : BitVec 7} {i j : Instr} : formatF0 n i = .ok j ↔ n = 0 ∧ i = j := by
  unfold formatF0
  split
  · rename_i h; simp [h]
  · rename_i h; exact ⟨nofun, fun hn => absurd hn.1 h⟩

/-- The opcode map answers a command exactly for its opcode and its count (R83). -/
theorem decodeOpcode_eq_ok_iff {opc : Nat} {n : BitVec 7} {i : Instr} :
    decodeOpcode opc n = .ok i ↔ opc = opcodeOf i ∧ n.toNat = countOf i := by
  constructor
  · intro h
    unfold decodeOpcode at h
    split at h
    case h_8 | h_10 | h_11 | h_12 | h_13 | h_14 | h_15 | h_16 | h_17 => cases h; exact ⟨rfl, rfl⟩
    case h_33 => cases h
    all_goals
      obtain ⟨rfl, rfl⟩ := formatF0_eq_ok.mp h
      exact ⟨rfl, rfl⟩
  · rintro ⟨rfl, hn⟩
    cases i with
    | pad m | rskip m | wru m | wruat m | rdu m | pku m | wrs m | rds m | pks m =>
      obtain rfl : n = m := BitVec.eq_of_toNat_eq hn
      rfl
    | _ =>
      obtain rfl : n = 0 := BitVec.eq_of_toNat_eq hn
      rfl

theorem fieldRsv_eq_zero_iff {w : Word32} : fieldRsv w = 0 ↔ wordRsv w = 0 := by
  rw [← BitVec.toNat_inj, fieldRsv_toNat]
  rfl

/-- A word without reserved bits decodes as its opcode and its count say (R80, R85). -/
theorem decode_of_wordRsv_eq_zero {w : Word32} (h : wordRsv w = 0) :
    decode w = decodeOpcode (wordOpc w) (fieldN w) := by
  rw [← fieldOpc_eq]
  exact if_pos (fieldRsv_eq_zero_iff.mpr h)

theorem decode_of_wordRsv_ne_zero {w : Word32} (h : wordRsv w ≠ 0) : decode w = .error .reservedBits :=
  if_neg (mt fieldRsv_eq_zero_iff.mp h)

/-- A word decodes to a command exactly when its three fields are the command's (R80, R81). -/
theorem decode_eq_ok_iff_fields {w : Word32} {i : Instr} :
    decode w = .ok i ↔ wordRsv w = 0 ∧ wordOpc w = opcodeOf i ∧ wordN w = countOf i := by
  by_cases h : wordRsv w = 0
  · rw [decode_of_wordRsv_eq_zero h, decodeOpcode_eq_ok_iff, fieldN_toNat, and_iff_right h]
  · rw [decode_of_wordRsv_ne_zero h]
    exact ⟨nofun, fun hw => absurd hw.1 h⟩

/-- A command's word is the only one that decodes to it: the three fields make up the whole word (R80, R81). -/
theorem decode_eq_ok_iff {w : Word32} {i : Instr} : decode w = .ok i ↔ encode i = w := by
  have hopc := opcodeOf_lt i
  have hcount := countOf_lt i
  rw [decode_eq_ok_iff_fields, ← BitVec.toNat_inj, encode_toNat]
  unfold wordRsv wordOpc wordN
  omega

/-- Settles O2. -/
theorem decodeOfEncode : Obligations.DecodeOfEncode := fun _ => decode_eq_ok_iff.mpr rfl

/-- Settles O3. -/
theorem encodeOfDecode : Obligations.EncodeOfDecode := fun _ _ => decode_eq_ok_iff.mp

/-- Settles O1: each word is the named command's. -/
theorem specWordsDecode : Obligations.SpecWordsDecode := by
  unfold Obligations.SpecWordsDecode
  simp only [decode_eq_ok_iff]
  exact ⟨rfl, rfl, rfl, rfl, rfl, rfl, rfl⟩

/-! ## The formats of the opcodes (R83) -/

theorem decodeOpcode_F0 {opc : Nat} (h : opc ∈ opcodesF0) :
    ∃ i, decodeOpcode opc 0 = .ok i ∧ i.countAndMax = none := by
  fin_cases h <;> exact ⟨_, rfl, rfl⟩

theorem decodeOpcode_FN64 {opc : Nat} (h : opc ∈ opcodesFN64) (n : BitVec 7) :
    ∃ i, decodeOpcode opc n = .ok i ∧ i.countAndMax = some (n, 64) := by
  fin_cases h <;> exact ⟨_, rfl, rfl⟩

theorem decodeOpcode_FN32 {opc : Nat} (h : opc ∈ opcodesFN32) (n : BitVec 7) :
    ∃ i, decodeOpcode opc n = .ok i ∧ i.countAndMax = some (n, 32) := by
  fin_cases h <;> exact ⟨_, rfl, rfl⟩

/-- The three lists hold the opcode of every command. -/
theorem opcodeOf_mem (i : Instr) : opcodeOf i ∈ opcodesF0 ++ opcodesFN64 ++ opcodesFN32 := by
  cases i <;> simp [opcodeOf, opcodesF0, opcodesFN64, opcodesFN32]

/-- A command whose opcode has format `F0` has count field 0 (R81). -/
theorem countOf_of_mem_opcodesF0 {i : Instr} (h : opcodeOf i ∈ opcodesF0) : countOf i = 0 := by
  cases i with
  | pad n | rskip n | wru n | wruat n | rdu n | pku n | wrs n | rds n | pks n => simp [opcodeOf, opcodesF0] at h
  | _ => rfl

theorem wellFormed_of_countAndMax_none {i : Instr} (h : i.countAndMax = none) : i.wellFormed = true := by
  simp only [Instr.wellFormed, h]

theorem wellFormed_of_countAndMax_some {i : Instr} {n : BitVec 7} {max : Nat} (h : i.countAndMax = some (n, max)) :
    i.wellFormed = decide (countInRange max n) := by
  simp only [Instr.wellFormed, h]

/-! ## The three classes of words (R85, R86, R88) -/

section

variable {w : Word32}

theorem decode_F0 (hr : wordRsv w = 0) (hopc : wordOpc w ∈ opcodesF0) (hN : wordN w = 0) :
    ∃ i, decode w = .ok i ∧ i.wellFormed = true := by
  obtain ⟨i, hd, hc⟩ := decodeOpcode_F0 hopc
  have hzero : fieldN w = 0 := BitVec.eq_of_toNat_eq ((fieldN_toNat w).trans hN)
  exact ⟨i, by rw [decode_of_wordRsv_eq_zero hr, hzero, hd], wellFormed_of_countAndMax_none hc⟩

/-- An `FN` word decodes whatever its count; the count decides whether the command is well formed (R86). -/
theorem decode_FN {max : Nat} (hr : wordRsv w = 0)
    (hopc : ∃ i, decodeOpcode (wordOpc w) (fieldN w) = .ok i ∧ i.countAndMax = some (fieldN w, max)) :
    ∃ i, decode w = .ok i ∧ i.wellFormed = decide (1 ≤ wordN w ∧ wordN w ≤ max) := by
  obtain ⟨i, hd, hc⟩ := hopc
  refine ⟨i, (decode_of_wordRsv_eq_zero hr).trans hd, ?_⟩
  simp only [wellFormed_of_countAndMax_some hc, countInRange, fieldN_toNat]

theorem decode_FN64 (hr : wordRsv w = 0) (hopc : wordOpc w ∈ opcodesFN64) :
    ∃ i, decode w = .ok i ∧ i.wellFormed = decide (1 ≤ wordN w ∧ wordN w ≤ 64) :=
  decode_FN hr (decodeOpcode_FN64 hopc _)

theorem decode_FN32 (hr : wordRsv w = 0) (hopc : wordOpc w ∈ opcodesFN32) :
    ∃ i, decode w = .ok i ∧ i.wellFormed = decide (1 ≤ wordN w ∧ wordN w ≤ 32) :=
  decode_FN hr (decodeOpcode_FN32 hopc _)

theorem decode_of_legalWord (h : legalWord w) : ∃ i, decode w = .ok i ∧ i.wellFormed = true := by
  obtain ⟨hr, ⟨hopc, hN⟩ | ⟨hopc, hN⟩ | ⟨hopc, hN⟩⟩ := h
  · exact decode_F0 hr hopc hN
  · simpa only [hN, and_self, decide_true] using decode_FN64 hr hopc
  · simpa only [hN, and_self, decide_true] using decode_FN32 hr hopc

theorem decode_of_countOutOfRange (h : countOutOfRange w) : ∃ i, decode w = .ok i ∧ i.wellFormed = false := by
  obtain ⟨hr, ⟨hopc, hN⟩ | ⟨hopc, hN⟩⟩ := h
  · obtain ⟨i, hd, hwf⟩ := decode_FN64 hr hopc
    exact ⟨i, hd, hwf.trans (decide_eq_false (by omega))⟩
  · obtain ⟨i, hd, hwf⟩ := decode_FN32 hr hopc
    exact ⟨i, hd, hwf.trans (decide_eq_false (by omega))⟩

theorem decode_of_illegalWord (h : illegalWord w) : ∃ e, decode w = .error e := by
  cases hd : decode w with
  | error e => exact ⟨e, rfl⟩
  | ok i =>
    obtain ⟨hr, hopc, hN⟩ := decode_eq_ok_iff_fields.mp hd
    rw [illegalWord, hopc, hN] at h
    obtain h | h | ⟨hF0, hcount⟩ := h
    · exact absurd hr h
    · exact absurd (opcodeOf_mem i) h
    · exact absurd (countOf_of_mem_opcodesF0 hF0) hcount

/-- Every word is in one of the three classes (R88). -/
theorem word_classes (w : Word32) : legalWord w ∨ countOutOfRange w ∨ illegalWord w := by
  have hcount : ∀ max, (1 ≤ wordN w ∧ wordN w ≤ max) ∨ (wordN w = 0 ∨ max < wordN w) := by omega
  by_cases hr : wordRsv w = 0
  case neg => exact .inr (.inr (.inl hr))
  by_cases hopc : wordOpc w ∈ opcodesF0 ++ opcodesFN64 ++ opcodesFN32
  case neg => exact .inr (.inr (.inr (.inl hopc)))
  obtain (h0 | h64) | h32 := List.mem_append.mp hopc |>.imp_left List.mem_append.mp
  · by_cases hN : wordN w = 0
    · exact .inl ⟨hr, .inl ⟨h0, hN⟩⟩
    · exact .inr (.inr (.inr (.inr ⟨h0, hN⟩)))
  · exact (hcount 64).imp (fun hN => ⟨hr, .inr (.inl ⟨h64, hN⟩)⟩) fun hN => .inl ⟨hr, .inl ⟨h64, hN⟩⟩
  · exact (hcount 32).imp (fun hN => ⟨hr, .inr (.inr ⟨h32, hN⟩)⟩) fun hN => .inl ⟨hr, .inr ⟨h32, hN⟩⟩

end

/-- Three conditions that leave nothing out are the decoder's three answers, which exclude each other, as soon as
each condition implies its own answer. -/
theorem iff_answers_of_cover {r : Except DecodeError Instr} {legal outOfRange illegal : Prop}
    (hlegal : legal → ∃ i, r = .ok i ∧ i.wellFormed = true)
    (hcount : outOfRange → ∃ i, r = .ok i ∧ i.wellFormed = false)
    (hillegal : illegal → ∃ e, r = .error e) (hcover : legal ∨ outOfRange ∨ illegal) :
    (legal ↔ ∃ i, r = .ok i ∧ i.wellFormed = true) ∧ (outOfRange ↔ ∃ i, r = .ok i ∧ i.wellFormed = false) ∧
      (illegal ↔ ∃ e, r = .error e) := by
  cases r with
  | error e => simp_all
  | ok i => cases hwf : i.wellFormed <;> simp_all

/-- Settles O4. -/
theorem decodeClasses : Obligations.DecodeClasses := fun w =>
  iff_answers_of_cover decode_of_legalWord decode_of_countOutOfRange decode_of_illegalWord (word_classes w)

/-! ## The prologue (R84 to R86) -/

section

variable {s : State} {i : Instr}

/-- The fault gate (R84): a faulted engine runs no command but `SRST`. -/
theorem exec_of_faulted (hi : i ≠ .srst) (hs : s.fcode ≠ 0) : exec i s = .next s := by
  cases i with
  | srst => exact absurd rfl hi
  | _ => exact gated_of_ne hs

theorem counted_of_not_inRange {max : Nat} {n : BitVec 7} {w : Word32} {body : Result} (h : ¬countInRange max n) :
    counted max n w s body = raise .ovfNbits w s := if_neg h

/-- The bit-count test (R86) comes before the command's own tests. -/
theorem exec_of_not_wellFormed (hs : s.fcode = 0) (hi : i.wellFormed = false) :
    exec i s = raise .ovfNbits (encode i) s := by
  cases i with
  | pad n | rskip n | wru n | wruat n | rdu n | pku n | wrs n | rds n | pks n =>
    exact (gated_of_zero hs).trans (counted_of_not_inRange (of_decide_eq_false hi))
  | _ => cases hi

/-- A faulted engine runs no word but `SRST`'s, whether or not the word decodes (R84). -/
theorem performCmd_of_faulted {w : Word32} (hw : w ≠ encode .srst) (hs : s.fcode ≠ 0) : performCmd w s = .next s := by
  cases hd : decode w with
  | error e => rw [performCmd_of_illegal hd, gated_of_ne hs]
  | ok i =>
    have hi : i ≠ .srst := by
      rintro rfl
      exact hw (decode_eq_ok_iff.mp hd).symm
    rw [performCmd_of_decode hd, exec_of_faulted hi hs]

end

/-- Settles O6: `0x00000001` is the word of `SRST`. -/
theorem faultGate : Obligations.FaultGate := by
  intro s w rest hp hs
  have hstep : step s = performCmd w (s.withPending rest) := step_of_pending hp
  refine ⟨fun hw => hstep.trans (performCmd_of_faulted hw hs), ?_⟩
  rintro rfl
  exact hstep.trans (performCmd_of_decode (decodeOfEncode .srst))

/-- Settles O7. -/
theorem illegalWordFaults : Obligations.IllegalWordFaults := by
  intro s w rest hp hs hw
  obtain ⟨e, hd⟩ := decode_of_illegalWord hw
  calc step s
      = performCmd w (s.withPending rest) := step_of_pending hp
    _ = gated _ (raise .illegal w _) := performCmd_of_illegal hd
    _ = raise .illegal w _ := gated_of_zero hs

/-- Settles O8: the word recorded is the command's own encoding. -/
theorem countOutOfRangeFaults : Obligations.CountOutOfRangeFaults := by
  intro s w rest hp hs hw
  obtain ⟨i, hd, hwf⟩ := decode_of_countOutOfRange hw
  obtain rfl := decode_eq_ok_iff.mp hd
  calc step s
      = performCmd (encode i) (s.withPending rest) := step_of_pending hp
    _ = exec i _ := performCmd_of_decode hd
    _ = raise .ovfNbits (encode i) _ := exec_of_not_wellFormed hs hwf

end Sys2Proof.Machine

/-! The buffer, cursor and padding family (40_buffer_cursor.md): what each command does (R100 to R109) and the laws of
the family (R110).  A command that completes does so by its `Effect`; what remains is that the 32-bit registers hold
the numbers of the rule whole. -/

namespace Sys2Proof.Machine

/-! ## Numbers in registers -/

theorem word32_of_toNat (x : Word32) : word32 x.toNat = x := (BitVec.ofNat_toNat 32 x).trans (BitVec.setWidth_eq x)

/-- A number of at most a register's value is stored whole. -/
theorem word32_toNat_of_le_word {x : Word32} {n : Nat} (h : n ≤ x.toNat) : (word32 n).toNat = n := by
  rw [word32_toNat, Nat.mod_eq_of_lt (h.trans_lt x.isLt)]

theorem padBits_lt (n : Nat) : padBits n < 8 := Nat.mod_lt _ (by decide)

theorem word32_padBits_toNat (n : Nat) : (word32 (padBits n)).toNat = padBits n := by
  have := padBits_lt n
  rw [word32_toNat, Nat.mod_eq_of_lt (by omega)]

theorem ceil8_mod_eight (n : Nat) : ceil8 n % 8 = 0 := Nat.mul_mod_right ..

/-- Rounding up to whole bytes keeps the number of bytes (R23, R106). -/
theorem bytes_of_ceil8 (n : Nat) : (ceil8 n + 7) / 8 = (n + 7) / 8 := by
  unfold ceil8
  omega

/-! ## The tests that fail -/

section

variable {s : State} {w : Word32} {body : Result} {n : BitVec 7}

theorem fits_of_lt {last : Nat} (h : s.capBits < last) : fits last w s body = raise .ovfCap w s := if_pos h

theorem remaining_of_lt {need : Nat} (h : s.rlen.toNat < s.pos.toNat + need) :
    remaining need w s body = raise .ovfRead w s := if_pos h

/-- A word with a command's opcode and count is that command's word (R81). -/
theorem encode_eq_of_toNat {i : Instr} (h : w.toNat = opcodeOf i + 256 * countOf i) : encode i = w :=
  BitVec.eq_of_toNat_eq ((encode_toNat i).trans h.symm)

theorem not_countInRange {max : Nat} (h : n.toNat = 0 ∨ max < n.toNat) : ¬countInRange max n := by
  rintro ⟨h1, hmax⟩
  omega

theorem exec_wimp_of_lt (h0 : s.fcode = 0) (h : s.capBits < 8 * s.ofs.toNat) :
    exec .wimp s = raise .ovfCap (encode .wimp) s :=
  (gated_of_zero h0).trans (fits_of_lt h)

theorem exec_rseek_of_lt (h0 : s.fcode = 0) (h : s.rlen.toNat < s.ofs.toNat) :
    exec .rseek s = raise .ovfRead (encode .rseek) s :=
  (gated_of_zero h0).trans (if_pos h)

theorem exec_pad_of_lt (h0 : s.fcode = 0) (hn : countInRange 64 n) (h : s.capBits < s.len.toNat + n.toNat) :
    exec (.pad n) s = raise .ovfCap (encode (.pad n)) s :=
  (gated_of_zero h0).trans ((counted_of_inRange hn).trans (fits_of_lt h))

theorem exec_rpadb_of_lt (h0 : s.fcode = 0) (h : s.rlen.toNat < s.pos.toNat + padBits s.pos.toNat) :
    exec .rpadb s = raise .ovfRead (encode .rpadb) s :=
  (gated_of_zero h0).trans (remaining_of_lt h)

theorem exec_rskip_of_lt (h0 : s.fcode = 0) (hn : countInRange 64 n) (h : s.rlen.toNat < s.pos.toNat + n.toNat) :
    exec (.rskip n) s = raise .ovfRead (encode (.rskip n)) s :=
  (gated_of_zero h0).trans ((counted_of_inRange hn).trans (remaining_of_lt h))

end

/-! ## The commands, one by one (R100 to R109) -/

/-- Settles O31: `SRST` has no gate and no test. -/
theorem softResetResult : Obligations.SoftResetResult :=
  ⟨decodeOfEncode .srst, fun _ => exec_of_effect (.inl rfl) rfl⟩

/-- Settles O32: the new memory is the zero-filled one. -/
theorem wnewResult : Obligations.WnewResult := by
  intro s h0
  refine ⟨decodeOfEncode .wnew, zeroFill s.capBytes.val s.mem, exec_of_effect (.inr h0) rfl, ?_, ?_⟩
  · intro a ha
    rw [readByte_zeroFill, if_pos ha]
  · intro a ha
    rw [readByte_zeroFill, if_neg (Nat.not_lt.mpr ha)]

/-- Settles O33: a length that fits the memory fits the register. -/
theorem wimpResult : Obligations.WimpResult := by
  intro s h0
  refine ⟨decodeOfEncode .wimp, fun hcap => ?_, exec_wimp_of_lt h0⟩
  exact ⟨word32 (8 * s.ofs.toNat), exec_of_effect (.inr h0) ⟨hcap, rfl⟩, word32_toNat_of_le hcap⟩

/-- Settles O34: `ROPEN` takes `LEN` itself, `ROPENB` takes it rounded up, which still fits (R104). -/
theorem openReaderResult : Obligations.OpenReaderResult := by
  intro s h0 hlen
  have hceil : ceil8 s.len.toNat ≤ s.capBits := ceil8_le_capBits hlen
  have hword : (word32 (ceil8 s.len.toNat)).toNat = ceil8 s.len.toNat := word32_toNat_of_le hceil
  refine ⟨decodeOfEncode .ropen, decodeOfEncode .ropenb, ?ropen, word32 (ceil8 s.len.toNat), ?ropenb, hword,
    hword.trans_le hceil⟩
  case ropen =>
    have h : exec .ropen s = .next (s.openReader s.len.toNat) := exec_of_effect (.inr h0) rfl
    rwa [State.openReader, word32_of_toNat] at h
  case ropenb => exact exec_of_effect (.inr h0) rfl

/-- Settles O35. -/
theorem rseekResult : Obligations.RseekResult := by
  intro s h0
  exact ⟨decodeOfEncode .rseek, fun hofs => exec_of_effect (.inr h0) ⟨hofs, rfl⟩, exec_rseek_of_lt h0⟩

/-- Settles O36: `LEN` and the pad bits make up `LEN` rounded to whole bytes, which fits. -/
theorem padbResult : Obligations.PadbResult := by
  intro s h0 hlen
  have hsum : s.len.toNat + padBits s.len.toNat = ceil8 s.len.toNat := add_padBits _
  have hcnt := word32_padBits_toNat s.len.toNat
  have hnew : (word32 (s.len.toNat + padBits s.len.toNat)).toNat = s.len.toNat + padBits s.len.toNat :=
    word32_toNat_of_le (hsum.trans_le (ceil8_le_capBits hlen))
  refine ⟨decodeOfEncode .padb, _, _, exec_of_effect (.inr h0) rfl, hcnt, ?_, ?_, ?_⟩
  · rw [hnew, hcnt]
  · exact hnew.trans hsum
  · rw [hnew, hsum, bytes_of_ceil8]

/-- Settles O37: the count test, then the capacity test; a sum that passes it is stored whole. -/
theorem padResult : Obligations.PadResult := by
  intro s n w h0 hw
  obtain rfl : encode (.pad n) = w := encode_eq_of_toNat hw
  refine ⟨decodeOfEncode (.pad n), fun hn => ?_, fun h1 h64 hcap => ?_, fun h1 h64 => exec_pad_of_lt h0 ⟨h1, h64⟩⟩
  · exact exec_of_not_wellFormed h0 (decide_eq_false (not_countInRange hn))
  · exact ⟨_, _, exec_of_effect (.inr h0) ⟨⟨h1, h64⟩, hcap, rfl⟩, word32_toNat_of_le hcap,
      word32_toNat_of_le ((Nat.le_add_left ..).trans hcap)⟩

/-- Settles O38: a position up to `RLEN` is stored whole, and it is `POS` rounded up to whole bytes. -/
theorem rpadbResult : Obligations.RpadbResult := by
  intro s h0
  refine ⟨decodeOfEncode .rpadb, fun hread => ?_, exec_rpadb_of_lt h0⟩
  have hcnt := word32_padBits_toNat s.pos.toNat
  have hpos : (word32 (s.pos.toNat + padBits s.pos.toNat)).toNat = s.pos.toNat + padBits s.pos.toNat :=
    word32_toNat_of_le_word hread
  refine ⟨_, _, exec_of_effect (.inr h0) ⟨hread, rfl⟩, hcnt, ?_, ?_⟩
  · rw [hpos, hcnt]
  · rw [hpos, add_padBits, ceil8_mod_eight]

/-- Settles O39: the count test, then the read-overflow test; a position up to `RLEN` is stored whole. -/
theorem rskipResult : Obligations.RskipResult := by
  intro s n w h0 hw
  obtain rfl : encode (.rskip n) = w := encode_eq_of_toNat hw
  refine ⟨decodeOfEncode (.rskip n), fun hn => ?_, fun h1 h64 hread => ?_,
    fun h1 h64 => exec_rskip_of_lt h0 ⟨h1, h64⟩⟩
  · exact exec_of_not_wellFormed h0 (decide_eq_false (not_countInRange hn))
  · exact ⟨_, _, exec_of_effect (.inr h0) ⟨⟨h1, h64⟩, hread, rfl⟩, word32_toNat_of_le_word hread,
      word32_toNat_of_le_word ((Nat.le_add_left ..).trans hread)⟩

/-! ## The laws of the family (R110) -/

/-- `PADB` leaves `LEN` on a byte boundary, where a second one adds nothing, and keeps `LENB` (R110). -/
theorem padb_twice {s : State} (h0 : s.fcode = 0) (hlen : s.len.toNat ≤ s.capBits) :
    ∃ t u, exec .padb s = .next t ∧ exec .padb t = .next u ∧ t.len.toNat % 8 = 0 ∧ u = { t with cnt := 0 } ∧
      readReg t 9 = readReg s 9 := by
  obtain ⟨-, l, c, hexec, -, -, hceil, hbytes⟩ := padbResult s h0 hlen
  have hmod : l.toNat % 8 = 0 := by omega
  obtain ⟨-, l', c', hexec', hc', hl', -, -⟩ :=
    padbResult { s with len := l, cnt := c } h0 (hceil.trans_le (ceil8_le_capBits hlen))
  have hcnt : c' = 0 := BitVec.eq_of_toNat_eq (hc'.trans (by simp [hmod]))
  have hsame : l' = l := BitVec.eq_of_toNat_eq (hl'.trans (by simp [hcnt]))
  subst hcnt hsame
  refine ⟨_, _, hexec, hexec', hmod, rfl, BitVec.eq_of_toNat_eq ?_⟩
  rw [readReg_lenb, readReg_lenb]
  exact hbytes

/-- No command of the family but `WNEW` changes a bit of `MEM` (R110). -/
theorem family_writesMem {i : Instr}
    (h : i = .srst ∨ i = .wimp ∨ i = .ropen ∨ i = .ropenb ∨ i = .rseek ∨ i = .padb ∨ (∃ n, i = .pad n) ∨
      i = .rpadb ∨ ∃ n, i = .rskip n) : writesMem i = false := by
  rcases h with rfl | rfl | rfl | rfl | rfl | rfl | ⟨n, rfl⟩ | rfl | ⟨n, rfl⟩ <;> rfl

/-- Settles O40: the results of `PADB`, `ROPEN` and `ROPENB`, and the table of the commands that write `MEM`. -/
theorem paddingLaws : Obligations.PaddingLaws := by
  intro s h0 hlen
  obtain ⟨-, -, hropen, r, hropenb, hr, -⟩ := openReaderResult s h0 hlen
  refine ⟨padb_twice h0 hlen, ⟨_, hropen, Nat.sub_zero _⟩, ⟨_, hropenb, ?_⟩, fun i t h hi k => ?_⟩
  · rw [readReg_lenb]
    exact hr
  · obtain ⟨-, -, -, -, -, hmem⟩ := cursorAndFlagWriters s t i h
    rw [hmem (family_writesMem hi)]

end Sys2Proof.Machine

/-! The fixed-width family (41_fixed_width.md): the sign-indicator coding in numbers (R120), what each command of the
family does (R121 to R127), the round trips (R128), and the peeks of every family (R124, R127, R153 to R156, R173). -/

namespace Sys2Proof.Machine

/-! ## The sign-indicator coding (R120) -/

/-- What a sign-indicator field stores beside the sign: the pattern, complemented for a negative value. -/
def beneathSign (v : Word32) : Word32 := if v.toInt < 0 then ~~~v else v

section

variable {n : Nat} {v : Word32}

/-- The number `-x - 1` of a negative `x`, `x` itself otherwise. -/
theorem beneathSign_toNat (v : Word32) :
    ((beneathSign v).toNat : Int) = if v.toInt < 0 then -v.toInt - 1 else v.toInt := by
  have hlt := v.isLt
  have htoInt := BitVec.toInt_eq_toNat_cond v
  unfold beneathSign
  split
  · rw [BitVec.toNat_not]
    omega
  · omega

/-- Bit 31 of a pattern is its sign. -/
theorem getLsbD_sign (v : Word32) : v.getLsbD 31 = decide (v.toInt < 0) :=
  (BitVec.msb_eq_getLsbD_last v).symm.trans BitVec.msb_eq_toInt

theorem getLsbD_signBit (hn : n < 32) (i : Nat) : (BitVec.ofNat 32 (signBit n)).getLsbD i = decide (n - 1 = i) := by
  rw [BitVec.getLsbD_ofNat, signBit, Nat.testBit_two_pow]
  by_cases hi : n - 1 = i
  · simp [show i < 32 by omega]
  · simp [hi]

theorem sEnc_lt (hn : n ≤ 32) : sEnc n v < 2 ^ n := by
  rcases hn.eq_or_lt with rfl | hn
  · rw [sEnc, if_pos rfl]
    exact v.isLt
  · rw [sEnc, if_neg hn.ne]
    split
    · exact Nat.mod_lt _ (Nat.two_pow_pos n)
    · exact Nat.mod_lt _ (Nat.two_pow_pos n)

/-- Below 32 bits the top bit of the field is the sign. -/
theorem testBit_sEnc (hn : n < 32) {i : Nat} (hi : i < n) :
    (sEnc n v).testBit i = if i = n - 1 then decide (v.toInt < 0) else (beneathSign v).getLsbD i := by
  rw [sEnc, if_neg hn.ne, getLsbD_sign, beneathSign]
  by_cases hv : v.toInt < 0
  · rw [if_pos (decide_eq_true hv), if_pos hv, Nat.testBit_mod_two_pow, BitVec.testBit_toNat, BitVec.getLsbD_or,
      getLsbD_signBit hn]
    by_cases hs : i = n - 1
    · simp [hs, hv, show n - 1 < n by omega]
    · simp [hi, hs, Ne.symm hs]
  · rw [if_neg (by simpa using hv), if_neg hv, Nat.testBit_mod_two_pow, BitVec.testBit_toNat, BitVec.getLsbD_and,
      BitVec.getLsbD_not, getLsbD_signBit hn]
    by_cases hs : i = n - 1
    · simp [hs, hv]
    · simp [hi, hs, Ne.symm hs, show i < 32 by omega]

/-- Settles O47. -/
theorem signIndicatorAlwaysFits : Obligations.SignIndicatorAlwaysFits := by
  intro n v h1 hn
  refine ⟨sEnc_lt hn.le, ?_, fun i hi => ?_⟩
  · rw [testBit_sEnc hn (by omega), if_pos rfl]
  · rw [testBit_sEnc hn (by omega), if_neg hi.ne, beneathSign]
    split
    · simp [show i < 32 by omega]
    · rfl

theorem sEnc_mod_signBit (hn : n < 32) : sEnc n v % signBit n = (beneathSign v).toNat % signBit n := by
  refine Nat.eq_of_testBit_eq fun i => ?_
  rw [signBit, Nat.testBit_mod_two_pow, Nat.testBit_mod_two_pow, BitVec.testBit_toNat]
  by_cases hi : i < n - 1
  · rw [testBit_sEnc hn (by omega), if_neg hi.ne]
  · simp [hi]

/-- Below 32 bits a field is what stands beneath the sign, cut to `n - 1` bits, and the sign. -/
theorem sEnc_eq (h1 : 1 ≤ n) (hn : n < 32) :
    sEnc n v = (beneathSign v).toNat % signBit n + if v.toInt < 0 then signBit n else 0 := by
  have hsign : (sEnc n v).testBit (n - 1) = decide (v.toInt < 0) := by rw [testBit_sEnc hn (by omega), if_pos rfl]
  have hsplit := Nat.mod_pow_succ (x := sEnc n v) (b := 2) (k := n - 1)
  rw [Nat.sub_add_cancel h1, Nat.mod_eq_of_lt (sEnc_lt hn.le), ← Nat.toNat_testBit, hsign, ← signBit,
    sEnc_mod_signBit hn] at hsplit
  rw [hsplit]
  by_cases hv : v.toInt < 0 <;> simp [hv]

/-- What stands beneath the sign of a representable value fits below the sign bit. -/
theorem beneathSign_lt (hlo : -(2 ^ (n - 1) : Int) ≤ v.toInt) (hhi : v.toInt ≤ (2 ^ (n - 1) : Int) - 1) :
    (beneathSign v).toNat < signBit n := by
  have hnum := beneathSign_toNat v
  have hcast : (signBit n : Int) = 2 ^ (n - 1) := by simp [signBit]
  split at hnum <;> omega

theorem sDec_sEnc (h1 : 1 ≤ n) (hn : n ≤ 32) (hlo : -(2 ^ (n - 1) : Int) ≤ v.toInt)
    (hhi : v.toInt ≤ (2 ^ (n - 1) : Int) - 1) : sDec n (sEnc n v) = v.toInt := by
  rcases hn.eq_or_lt with rfl | hn
  · rw [sEnc, if_pos rfl, sDec, if_pos rfl, BitVec.ofNat_toNat, BitVec.setWidth_eq]
  · have hnum := beneathSign_toNat v
    have hlow := Nat.mod_eq_of_lt (beneathSign_lt hlo hhi)
    rw [sDec, if_neg hn.ne, testBit_sEnc hn (by omega), if_pos rfl, sEnc_mod_signBit hn, sEnc_eq h1 hn, hlow]
    by_cases hv : v.toInt < 0
    · rw [if_pos hv] at hnum
      rw [if_pos (decide_eq_true hv), hnum]
      omega
    · rw [if_neg hv] at hnum
      simpa [hv] using hnum

/-- Settles O46. -/
theorem signIndicatorCoding : Obligations.SignIndicatorCoding := by
  intro n v h1 hn hlo hhi
  refine ⟨fun h32 => if_pos h32, fun hlt => ?_, sDec_sEnc h1 hn hlo hhi⟩
  have hnum := beneathSign_toNat v
  have hcast : (signBit n : Int) = 2 ^ (n - 1) := by simp [signBit]
  rw [sEnc_eq h1 hlt, Nat.mod_eq_of_lt (beneathSign_lt hlo hhi), ← hcast]
  by_cases hv : v.toInt < 0
  · rw [if_pos hv] at hnum
    simp [hv, hnum]
  · rw [if_neg hv] at hnum
    simp [hv, hnum]

/-- A decoded field is a signed 64-bit number (R126). -/
theorem toInt_ofInt_sDec {f : Nat} (hn : n ≤ 32) (hf : f < 2 ^ n) :
    (BitVec.ofInt 64 (sDec n f)).toInt = sDec n f := by
  have hf32 : f < 2 ^ 32 := hf.trans_le (Nat.pow_le_pow_right (by decide) hn)
  have hmod : f % signBit n ≤ f := Nat.mod_le ..
  have hge := BitVec.le_toInt (BitVec.ofNat 32 f)
  have hle := BitVec.toInt_lt (x := BitVec.ofNat 32 f)
  have hbounds : -2 ^ 63 ≤ sDec n f ∧ sDec n f < 2 ^ 63 := by
    unfold sDec
    split
    · omega
    · split <;> omega
  exact BitVec.toInt_ofInt_eq_self (by decide) hbounds.1 hbounds.2

end

/-! ## The fields written and read -/

section

variable {s t : State} {i : Instr} {n : BitVec 7} {w : Word32}

/-- What a command that stores the field `v` leaves, in the words of R54 and R60. -/
theorem exists_of_exec_written {off k v l : Nat} (hexec : exec i s = .next (s.written (putField s.mem off k v) l k))
    (hcap : off + k ≤ s.capBits) (hl : (word32 l).toNat = l) :
    ∃ m, ∃ l' c : Word32, exec i s = .next { s with mem := m, len := l', cnt := c } ∧ l'.toNat = l ∧ c.toNat = k ∧
      bitsWritten s.mem m off k v ∧ otherBytesKept s.mem m off k :=
  ⟨_, _, _, hexec, hl, word32_toNat_of_le ((Nat.le_add_left ..).trans hcap), streamBit_putField s.mem off k v,
    fun _ => readByte_putField_outside s.mem off k v⟩

/-- A field of the low bits of `VAL` is a field of `VAL` (R54). -/
theorem putField_lowBits (m : List Host.Cell) (off k : Nat) (v : Word64) :
    putField m off k (lowBits v k) = putField m off k v.toNat := putField_mod m off k v.toNat

/-! The commands that pass their tests. -/

theorem exec_wru (h0 : s.fcode = 0) (hn : countInRange 64 n) (hcap : s.len.toNat + n.toNat ≤ s.capBits) :
    exec (.wru n) s =
      .next (s.written (putField s.mem s.len.toNat n.toNat s.val.toNat) (s.len.toNat + n.toNat) n.toNat) :=
  exec_of_effect (.inr h0) ⟨hn, hcap, by rw [putField_lowBits]⟩

theorem exec_wruat (h0 : s.fcode = 0) (hn : countInRange 64 n) (hcap : s.ofs.toNat + n.toNat ≤ s.capBits) :
    exec (.wruat n) s =
      .next (s.written (putField s.mem s.ofs.toNat n.toNat s.val.toNat)
        (max s.len.toNat (s.ofs.toNat + n.toNat)) n.toNat) :=
  exec_of_effect (.inr h0) ⟨hn, hcap, by rw [putField_lowBits]⟩

theorem exec_wrs (h0 : s.fcode = 0) (hn : countInRange 32 n) (hcap : s.len.toNat + n.toNat ≤ s.capBits) :
    exec (.wrs n) s =
      .next (s.written (putField s.mem s.len.toNat n.toNat (sEnc n.toNat (low32 s.val)))
        (s.len.toNat + n.toNat) n.toNat) :=
  exec_of_effect (.inr h0) ⟨hn, hcap, rfl⟩

theorem exec_rdu (h0 : s.fcode = 0) (hn : countInRange 64 n) (hr : readable s n.toNat) :
    exec (.rdu n) s = .next (s.consumed (BitVec.ofNat 64 (fieldAt s.mem s.pos.toNat n.toNat)) n.toNat) :=
  exec_of_effect (.inr h0) ⟨hn, hr, rfl⟩

theorem exec_pku (h0 : s.fcode = 0) (hn : countInRange 64 n) (hr : readable s n.toNat) :
    exec (.pku n) s = .next (s.peeked (BitVec.ofNat 64 (fieldAt s.mem s.pos.toNat n.toNat)) n.toNat) :=
  exec_of_effect (.inr h0) ⟨hn, hr, rfl⟩

theorem exec_rds (h0 : s.fcode = 0) (hn : countInRange 32 n) (hr : readable s n.toNat) :
    exec (.rds n) s =
      .next (s.consumed (BitVec.ofInt 64 (sDec n.toNat (fieldAt s.mem s.pos.toNat n.toNat))) n.toNat) :=
  exec_of_effect (.inr h0) ⟨hn, hr, rfl⟩

theorem exec_pks (h0 : s.fcode = 0) (hn : countInRange 32 n) (hr : readable s n.toNat) :
    exec (.pks n) s =
      .next (s.peeked (BitVec.ofInt 64 (sDec n.toNat (fieldAt s.mem s.pos.toNat n.toNat))) n.toNat) :=
  exec_of_effect (.inr h0) ⟨hn, hr, rfl⟩

/-! The commands that fail a test of R187. -/

theorem counted_fits_of_lt {body : Result} {max last : Nat} (h0 : s.fcode = 0) (hn : countInRange max n)
    (h : s.capBits < last) : gated s (counted max n w s (fits last w s body)) = raise .ovfCap w s :=
  (gated_of_zero h0).trans ((counted_of_inRange hn).trans (fits_of_lt h))

theorem counted_fetchField_of_lt {max : Nat} {k : Nat → Result} (h0 : s.fcode = 0) (hn : countInRange max n)
    (h : s.rlen.toNat < s.pos.toNat + n.toNat) :
    gated s (counted max n w s (fetchField s n.toNat w k)) = raise .ovfRead w s :=
  (gated_of_zero h0).trans ((counted_of_inRange hn).trans (remaining_of_lt h))

end

/-! ## The commands, one by one (R121 to R127) -/

/-- Settles O41: the count test, the capacity test, and a field of the low bits of `VAL` at `LEN`. -/
theorem wruResult : Obligations.WruResult := by
  intro s n w h0 hw
  obtain rfl : encode (.wru n) = w := encode_eq_of_toNat hw
  refine ⟨decodeOfEncode (.wru n), fun hn => ?_, fun h1 h64 hcap => ?_, fun h1 h64 => counted_fits_of_lt h0 ⟨h1, h64⟩⟩
  · exact exec_of_not_wellFormed h0 (decide_eq_false (not_countInRange hn))
  · exact exists_of_exec_written (exec_wru h0 ⟨h1, h64⟩ hcap) hcap (word32_toNat_of_le hcap)

/-- Settles O42: as O41, at `OFS`; the larger of two legal lengths is stored whole. -/
theorem wruatResult : Obligations.WruatResult := by
  intro s n w h0 hw
  obtain rfl : encode (.wruat n) = w := encode_eq_of_toNat hw
  refine ⟨decodeOfEncode (.wruat n), fun hn => ?_, fun h1 h64 hcap => ?_,
    fun h1 h64 => counted_fits_of_lt h0 ⟨h1, h64⟩⟩
  · exact exec_of_not_wellFormed h0 (decide_eq_false (not_countInRange hn))
  · have hlt : max s.len.toNat (s.ofs.toNat + n.toNat) < 2 ^ 32 :=
      Nat.max_lt.mpr ⟨s.len.isLt, hcap.trans_lt (capBits_lt s)⟩
    exact exists_of_exec_written (exec_wruat h0 ⟨h1, h64⟩ hcap) hcap
      ((word32_toNat _).trans (Nat.mod_eq_of_lt hlt))

/-- Settles O43: one field, handed to `VAL` by both commands; bit `i` of it is stream bit `POS + i`. -/
theorem unsignedReadResult : Obligations.UnsignedReadResult := by
  intro s n w w' h0 hw hw'
  obtain rfl : encode (.rdu n) = w := encode_eq_of_toNat hw
  obtain rfl : encode (.pku n) = w' := encode_eq_of_toNat hw'
  refine ⟨decodeOfEncode (.rdu n), decodeOfEncode (.pku n), fun hn => ?count, fun h1 h64 hread hrlen => ?field,
    fun h1 h64 hlt => ?overflow⟩
  case count =>
    have hbad := decide_eq_false (not_countInRange hn)
    exact ⟨exec_of_not_wellFormed h0 hbad, exec_of_not_wellFormed h0 hbad⟩
  case field =>
    have hr : readable s n.toNat := ⟨hread, hread.trans hrlen⟩
    refine ⟨_, _, _, exec_rdu h0 ⟨h1, h64⟩ hr, exec_pku h0 ⟨h1, h64⟩ hr, word32_toNat_of_le_word hread,
      word32_toNat_of_le_word ((Nat.le_add_left ..).trans hread), fun i hi => ?_⟩
    rw [BitVec.getLsbD_ofNat, decide_eq_true hi, Bool.true_and, testBit_fieldAt]
  case overflow =>
    exact ⟨counted_fetchField_of_lt h0 ⟨h1, h64⟩ hlt, counted_fetchField_of_lt h0 ⟨h1, h64⟩ hlt⟩

/-- Settles O44: as O41, with the sign-indicator field and the counts 1 to 32. -/
theorem wrsResult : Obligations.WrsResult := by
  intro s n w h0 hw
  obtain rfl : encode (.wrs n) = w := encode_eq_of_toNat hw
  refine ⟨decodeOfEncode (.wrs n), fun hn => ?_, fun h1 h32 hcap => ?_, fun h1 h32 => counted_fits_of_lt h0 ⟨h1, h32⟩⟩
  · exact exec_of_not_wellFormed h0 (decide_eq_false (not_countInRange hn))
  · exact exists_of_exec_written (exec_wrs h0 ⟨h1, h32⟩ hcap) hcap (word32_toNat_of_le hcap)

/-- Settles O45: as O43; the decoded field fits `VAL` as a signed number. -/
theorem signedReadResult : Obligations.SignedReadResult := by
  intro s n w w' h0 hw hw'
  obtain rfl : encode (.rds n) = w := encode_eq_of_toNat hw
  obtain rfl : encode (.pks n) = w' := encode_eq_of_toNat hw'
  refine ⟨decodeOfEncode (.rds n), decodeOfEncode (.pks n), fun hn => ?count, fun h1 h32 hread hrlen => ?field,
    fun h1 h32 hlt => ?overflow⟩
  case count =>
    have hbad := decide_eq_false (not_countInRange hn)
    exact ⟨exec_of_not_wellFormed h0 hbad, exec_of_not_wellFormed h0 hbad⟩
  case field =>
    have hr : readable s n.toNat := ⟨hread, hread.trans hrlen⟩
    exact ⟨_, getBits_of_le hr.2, _, _, _, exec_rds h0 ⟨h1, h32⟩ hr, exec_pks h0 ⟨h1, h32⟩ hr,
      word32_toNat_of_le_word hread, word32_toNat_of_le_word ((Nat.le_add_left ..).trans hread),
      toInt_ofInt_sDec h32 (fieldAt_lt ..)⟩
  case overflow =>
    exact ⟨counted_fetchField_of_lt h0 ⟨h1, h32⟩ hlt, counted_fetchField_of_lt h0 ⟨h1, h32⟩ hlt⟩

/-! ## Round trips (R128) -/

/-- Settles O48: the reader's field is the one written, cut to its width; `SDec` undoes `SEnc`. -/
theorem fixedWidthRoundTrip : Obligations.FixedWidthRoundTrip := by
  intro s t r n h0 hcap hmem hbytes hr0 hpos hrlen
  have hbits : r.capBits = t.capBits := by rw [State.capBits, State.capBits, hbytes]
  refine ⟨fun h1 h64 hwrite => ?_, fun h1 h32 hwrite hlo hhi => ?_⟩
  · obtain rfl : _ = t := Host.Outcome.next.inj ((exec_wru h0 ⟨h1, h64⟩ hcap).symm.trans hwrite)
    have hr : readable r n.toNat := by rw [readable, hpos, hbits]; exact ⟨hrlen, hcap⟩
    refine ⟨_, exec_rdu hr0 ⟨h1, h64⟩ hr, ?_⟩
    rw [consumed_val, hmem, hpos, written_mem, fieldAt_putField_same, BitVec.toNat_ofNat]
    exact Nat.mod_eq_of_lt ((Nat.mod_le ..).trans_lt s.val.isLt)
  · obtain rfl : _ = t := Host.Outcome.next.inj ((exec_wrs h0 ⟨h1, h32⟩ hcap).symm.trans hwrite)
    have hr : readable r n.toNat := by rw [readable, hpos, hbits]; exact ⟨hrlen, hcap⟩
    refine ⟨_, exec_rds hr0 ⟨h1, h32⟩ hr, ?_⟩
    rw [consumed_val, toInt_ofInt_sDec h32 (fieldAt_lt ..), hmem, hpos, written_mem, fieldAt_putField_same,
      Nat.mod_eq_of_lt (sEnc_lt h32)]
    exact sDec_sEnc h1 h32 hlo hhi

/-! ## Peeks -/

section

variable {s t : State} {peek read : Instr}

theorem peek_writesPos (h : consumingForm peek = some read) : writesPos peek = false := by
  cases peek with
  | pku n | pks n | pvu32 | pvu64 | pvs32 | pvs64 | pkr => rfl
  | _ => cases h

/-- A peek changes nothing that it or its consuming form reads: after it both have the effect they had before. -/
theorem effect_after_peek (h : consumingForm peek = some read) (heff : Effect peek s t) :
    t.fcode = s.fcode ∧ Effect peek t t ∧ ∃ u, Effect read s u ∧ Effect read t u := by
  cases peek with
  | pku n | pks n | pkr =>
    cases h
    obtain ⟨hrange, hr, rfl⟩ := heff
    exact ⟨rfl, ⟨hrange, hr, rfl⟩, _, ⟨hrange, hr, rfl⟩, ⟨hrange, hr, rfl⟩⟩
  | pvu32 | pvu64 | pvs32 | pvs64 =>
    cases h
    obtain ⟨acc, p, tr, hd, rfl⟩ := heff
    exact ⟨rfl, ⟨acc, p, tr, hd, rfl⟩, _, ⟨acc, p, tr, hd, rfl⟩, ⟨acc, p, tr, hd, rfl⟩⟩
  | _ => cases h

end

/-- Settles O60: the gate and a fault leave an engine that the gate holds; after an effect the same tests pass and
the same bits are read. -/
theorem peekIdempotence : Obligations.PeekIdempotence := by
  intro s t peek read h he
  have hreset : peek ≠ .srst := by rintro rfl; cases h
  have hpos : t.pos = s.pos := by
    obtain ⟨-, -, hp, -⟩ := cursorAndFlagWriters s t peek he
    exact hp (peek_writesPos h)
  rcases exec_next he with ⟨-, -, rfl⟩ | ⟨-, f, rfl⟩ | ⟨h0, heff⟩
  · exact ⟨rfl, he, fun _ => rfl⟩
  · have hf := faultCode_ne_zero f
    exact ⟨rfl, exec_of_faulted hreset hf, fun hz => absurd hz hf⟩
  · obtain ⟨hfcode, hpeek, u, hs, ht⟩ := effect_after_peek h heff
    have hs0 : s.fcode = 0 := h0.resolve_left hreset
    have ht0 : t.fcode = 0 := hfcode.trans hs0
    exact ⟨hpos, exec_of_effect (.inr ht0) hpeek,
      fun _ => (exec_of_effect (.inr ht0) ht).trans (exec_of_effect (.inr hs0) hs).symm⟩

end Sys2Proof.Machine

/-! The varint family (42_varint.md), first the zigzag mapping in numbers (R141), at every width. -/

namespace Sys2Proof.Machine

/-! ## The zigzag mapping (R141) -/

/-- The two directions on numbers undo each other. -/
theorem unzigzagOf_zigzagOf (x : Int) : unzigzagOf (zigzagOf x) = x := by
  unfold unzigzagOf zigzagOf
  split
  · rw [if_pos (by omega)]
    omega
  · rw [if_neg (by omega)]
    omega

theorem zigzagOf_unzigzagOf (z : Nat) : zigzagOf (unzigzagOf z) = z := by
  unfold unzigzagOf
  split
  · rw [zigzagOf, if_pos (by omega)]
    omega
  · rw [zigzagOf, if_neg (by omega)]
    omega

section

variable {W : Nat}

/-- The arithmetic shift by `W - 1` fills the word with the sign (R141). -/
theorem sshiftRight_all (v : BitVec W) : v.sshiftRight (W - 1) = if v.msb then BitVec.allOnes W else 0 := by
  refine BitVec.eq_of_getLsbD_eq fun i hi => ?_
  have hsign : (if W - 1 + i < W then v.getLsbD (W - 1 + i) else v.msb) = v.msb := by
    split
    · rw [show W - 1 + i = W - 1 by omega, BitVec.msb_eq_getLsbD_last]
    · rfl
  rw [BitVec.getLsbD_sshiftRight, hsign]
  cases v.msb <;> simp [hi]

theorem zigzag_of_msb_false {v : BitVec W} (h : v.msb = false) : zigzag v = v <<< 1 := by
  simp [zigzag, sshiftRight_all, h]

theorem zigzag_of_msb_true {v : BitVec W} (h : v.msb = true) : zigzag v = ~~~(v <<< 1) := by
  simp [zigzag, sshiftRight_all, h, BitVec.xor_allOnes]

theorem unzigzag_of_even {z : BitVec W} (h : z.toNat % 2 = 0) : unzigzag z = z >>> 1 := by
  have hbit : z.getLsbD 0 = false := by simp [BitVec.getLsbD, h]
  simp [unzigzag, hbit]

theorem unzigzag_of_odd {z : BitVec W} (h : z.toNat % 2 = 1) : unzigzag z = ~~~(z >>> 1) := by
  have hbit : z.getLsbD 0 = true := by simp [BitVec.getLsbD, h]
  simp [unzigzag, hbit, BitVec.xor_allOnes]

/-- The zigzag mapping on signed readings (R141). -/
theorem toNat_zigzag (v : BitVec W) : (zigzag v).toNat = zigzagOf v.toInt := by
  have hlt := v.isLt
  have hcond := BitVec.toInt_eq_toNat_cond v
  by_cases hdouble : 2 * v.toNat < 2 ^ W
  · rw [if_pos hdouble] at hcond
    have hsign : v.msb = false := BitVec.msb_eq_toInt.trans (decide_eq_false (by omega))
    rw [zigzag_of_msb_false hsign, BitVec.toNat_shiftLeft, Nat.shiftLeft_eq, pow_one, Nat.mul_comm,
      Nat.mod_eq_of_lt hdouble, zigzagOf, if_pos (by omega)]
    omega
  · rw [if_neg hdouble] at hcond
    have hsign : v.msb = true := BitVec.msb_eq_toInt.trans (decide_eq_true (by omega))
    rw [zigzag_of_msb_true hsign, BitVec.toNat_not, BitVec.toNat_shiftLeft, Nat.shiftLeft_eq, pow_one, Nat.mul_comm,
      Nat.mod_eq_sub_mod (Nat.not_lt.mp hdouble), Nat.mod_eq_of_lt (by omega), zigzagOf, if_neg (by omega)]
    omega

/-- The inverse mapping on signed readings (R141). -/
theorem toInt_unzigzag (z : BitVec W) : (unzigzag z).toInt = unzigzagOf z.toNat := by
  have hlt := z.isLt
  have hhalf : (z >>> 1).toNat = z.toNat / 2 := by rw [BitVec.toNat_ushiftRight, Nat.shiftRight_eq_div_pow, pow_one]
  rcases Nat.mod_two_eq_zero_or_one z.toNat with h | h
  · rw [unzigzag_of_even h, BitVec.toInt_eq_toNat_cond, hhalf, if_pos (by omega), unzigzagOf, if_pos h]
  · have hpow : 2 ∣ 2 ^ W := dvd_pow_self 2 (by rintro rfl; omega)
    rw [unzigzag_of_odd h, BitVec.toInt_eq_toNat_cond, BitVec.toNat_not, hhalf, if_neg (by omega), unzigzagOf,
      if_neg (by omega)]
    omega

theorem unzigzag_zigzag (v : BitVec W) : unzigzag (zigzag v) = v :=
  BitVec.toInt_inj.mp (by rw [toInt_unzigzag, toNat_zigzag, unzigzagOf_zigzagOf])

theorem zigzag_unzigzag (z : BitVec W) : zigzag (unzigzag z) = z :=
  BitVec.eq_of_toNat_eq (by rw [toNat_zigzag, toInt_unzigzag, zigzagOf_unzigzagOf])

end

/-- Settles O51: the laws hold at every width. -/
theorem zigzagBijection : Obligations.ZigzagBijection :=
  ⟨fun v => ⟨unzigzag_zigzag v, zigzag_unzigzag v, toNat_zigzag v, toInt_unzigzag v⟩,
    fun v => ⟨unzigzag_zigzag v, zigzag_unzigzag v, toNat_zigzag v, toInt_unzigzag v⟩⟩

end Sys2Proof.Machine

/-! The four kinds of varint command (42_varint.md), told apart only by width and signedness: what the kind's write
encodes (R142 to R146) and what its read and peek decode (R147 to R157). -/

namespace Sys2Proof.Machine

/-- The kinds of varint: 32 or 64 bits, unsigned or zigzagged (R143 to R146). -/
inductive VarKind where
  | u32
  | u64
  | s32
  | s64

namespace VarKind

def width : VarKind → Nat
  | u32 | s32 => 32
  | u64 | s64 => 64

def write : VarKind → Instr
  | u32 => .wvu32
  | u64 => .wvu64
  | s32 => .wvs32
  | s64 => .wvs64

def read : VarKind → Instr
  | u32 => .rvu32
  | u64 => .rvu64
  | s32 => .rvs32
  | s64 => .rvs64

def peek : VarKind → Instr
  | u32 => .pvu32
  | u64 => .pvu64
  | s32 => .pvs32
  | s64 => .pvs64

/-- The natural that the write of the kind lays for an operand in `VAL` (R143 to R146). -/
def code : VarKind → Word64 → Nat
  | u32, v => (low32 v).toNat
  | u64, v => v.toNat
  | s32, v => (zigzag (low32 v)).toNat
  | s64, v => (zigzag v).toNat

/-- The number that the kind reads an accumulated value as (R148). -/
def reading : VarKind → Nat → Int
  | u32, acc | u64, acc => acc
  | s32, acc | s64, acc => unzigzagOf acc

/-- What the read of the kind puts into `VAL` (R148). -/
def result : VarKind → Nat → Word64
  | u32, acc | u64, acc => BitVec.ofNat 64 acc
  | s32, acc => unzigzag32 acc
  | s64, acc => unzigzag64 acc

/-- The operand in `VAL` as the read of the kind returns it: a 32-bit one extended (R148, R158). -/
def extended : VarKind → Word64 → Word64
  | u32, v => (low32 v).setWidth 64
  | s32, v => (low32 v).signExtend 64
  | u64, v | s64, v => v

/-- The most bytes that a varint of the kind takes (R142). -/
def mostBytes : VarKind → Nat
  | u32 | s32 => 5
  | u64 | s64 => 10

/-- The four kinds in the order of their opcodes. -/
def all : List VarKind := [.u32, .u64, .s32, .s64]

variable (K : VarKind) {s t : State}

/-! ## The commands of a kind -/

theorem exec_write (h0 : s.fcode = 0) : exec K.write s = varEnc (K.code s.val) (encode K.write) s := by
  cases K with
  | _ => exact gated_of_zero h0

theorem exec_read (h0 : s.fcode = 0) :
    exec K.read s = varDec K.width s fun acc p tr => .next (s.consumedVar (K.result acc) p tr) := by
  cases K with
  | _ => exact gated_of_zero h0

theorem exec_peek (h0 : s.fcode = 0) :
    exec K.peek s = varDec K.width s fun acc p tr => .next (s.peekedVar (K.result acc) p tr) := by
  cases K with
  | _ => exact gated_of_zero h0

/-! ## What a kind encodes and decodes -/

theorem code_lt (v : Word64) : K.code v < 2 ^ K.width := by
  cases K with
  | _ => exact BitVec.isLt _

theorem result_eq_ofInt_reading {acc : Nat} (h : acc < 2 ^ K.width) :
    K.result acc = BitVec.ofInt 64 (K.reading acc) := by
  have hinv : (unzigzag (BitVec.ofNat K.width acc)).toInt = unzigzagOf acc := by
    rw [toInt_unzigzag, BitVec.toNat_ofNat, Nat.mod_eq_of_lt h]
  cases K with
  | u32 | u64 => exact (BitVec.ofInt_natCast 64 acc).symm
  | s32 => exact congrArg (BitVec.ofInt 64) hinv
  | s64 => exact BitVec.ofInt_toInt.symm.trans (congrArg (BitVec.ofInt 64) hinv)

/-- Decoding undoes encoding (R158). -/
theorem result_code (v : Word64) : K.result (K.code v) = K.extended v := by
  cases K with
  | u32 => exact BitVec.ofNat_toNat 64 (low32 v)
  | u64 => exact (BitVec.ofNat_toNat 64 v).trans (BitVec.setWidth_eq v)
  | s32 => rw [result, code, unzigzag32, BitVec.ofNat_toNat, BitVec.setWidth_eq, unzigzag_zigzag, extended]
  | s64 => rw [result, code, unzigzag64, BitVec.ofNat_toNat, BitVec.setWidth_eq, unzigzag_zigzag, extended]

theorem width_le : K.width ≤ 7 * K.mostBytes := by cases K with | _ => decide

end VarKind

/-! ## The byte count (R142) -/

/-- The payload bits of `b` bytes hold exactly the values whose varint takes at most `b` bytes. -/
theorem varCount_le_iff {v b : Nat} (hb : 1 ≤ b) : varCount v ≤ b ↔ v < 2 ^ (7 * b) := by
  rw [← bitlen_le_iff, varCount]
  omega

theorem one_le_varCount (v : Nat) : 1 ≤ varCount v := Nat.le_max_left ..

theorem lt_of_varCount (v : Nat) : v < 2 ^ (7 * varCount v) := (varCount_le_iff (one_le_varCount v)).mp le_rfl

/-- `varCount` is the least count that holds the value, and the only one that is. -/
theorem isVarCount_iff {v k : Nat} : isVarCount v k ↔ k = varCount v := by
  constructor
  · rintro ⟨h1, hlt, hleast⟩
    refine Nat.le_antisymm (Nat.not_lt.mp fun hc => ?_) ((varCount_le_iff h1).mpr hlt)
    exact absurd (hleast _ hc (one_le_varCount v)) (Nat.not_le.mpr (lt_of_varCount v))
  · rintro rfl
    refine ⟨one_le_varCount v, lt_of_varCount v, fun c hc h1 => ?_⟩
    exact Nat.not_lt.mp fun hlt => absurd ((varCount_le_iff h1).mpr hlt) (Nat.not_le.mpr hc)

theorem varCount_le_of_lt {v W b : Nat} (hb : 1 ≤ b) (hW : W ≤ 7 * b) (h : v < 2 ^ W) : varCount v ≤ b :=
  (varCount_le_iff hb).mpr (h.trans_le (Nat.pow_le_pow_right (by decide) hW))

namespace VarKind

theorem varCount_code_le (K : VarKind) (v : Word64) : varCount (K.code v) ≤ K.mostBytes :=
  varCount_le_of_lt (by cases K with | _ => decide) K.width_le (K.code_lt v)

end VarKind

/-! ## Varint writes (R142 to R146) -/

/-- Byte `j` of a varint as a number (R140, R142). -/
theorem varByte_eq (v k j : Nat) : varByte v k j = v / 2 ^ (7 * j) % 128 + if j + 1 < k then 128 else 0 := by
  have hlt : v / 2 ^ (7 * j) % 128 < 2 ^ 7 := Nat.mod_lt _ (by decide)
  rw [varByte, Nat.shiftRight_eq_div_pow]
  by_cases hj : j + 1 < k
  · rw [if_pos (by omega), if_pos hj, Nat.or_comm]
    exact (Nat.two_pow_add_eq_or_of_lt hlt 1).symm.trans (Nat.add_comm ..)
  · rw [if_neg (by omega), if_neg hj, Nat.or_zero]
    rfl

/-- Byte `j` of a varint reads back from where it was laid. -/
theorem fieldAt_putFields_varBytes (m : List Host.Cell) (off : Nat) {v j : Nat} (hj : j < varCount v) :
    fieldAt (putFields m off (varBytes v)) (off + 8 * j) 8 =
      v / 2 ^ (7 * j) % 128 + if j + 1 < varCount v then 128 else 0 := by
  rw [fieldAt_putFields m off (varBytes_lt v) (by rwa [varBytes_length]), varBytes_getD hj, varByte_eq]

/-- Every byte of memory that holds no bit of a byte string laid there reads as before (R60). -/
theorem readByte_putFields_outside (m : List Host.Cell) (off : Nat) (bs : List Nat) {a : Nat}
    (ha : 8 * a + 8 ≤ off ∨ off + 8 * bs.length ≤ 8 * a) : readByte (putFields m off bs) a = readByte m a :=
  readByte_eq_of_streamBit fun i hi => by rw [streamBit_putFields, if_neg (by omega)]

namespace VarKind

variable (K : VarKind) {s t : State}

theorem exec_write_of_le (h0 : s.fcode = 0) (hcap : s.len.toNat + 8 * varCount (K.code s.val) ≤ s.capBits) :
    exec K.write s =
      .next (s.written (putFields s.mem s.len.toNat (varBytes (K.code s.val)))
        (s.len.toNat + 8 * varCount (K.code s.val)) (8 * varCount (K.code s.val))) :=
  (K.exec_write h0).trans (varEnc_eq_next.mpr (.inl ⟨hcap, rfl⟩))

theorem exec_write_of_lt (h0 : s.fcode = 0) (hcap : s.capBits < s.len.toNat + 8 * varCount (K.code s.val)) :
    exec K.write s = .next (s.recordFault .ovfCap (encode K.write)) :=
  (K.exec_write h0).trans (fits_of_lt hcap)

/-- A varint write that completes without a fault laid the whole varint (R142). -/
theorem encodesTo_of_exec_write (h0 : s.fcode = 0) (h : exec K.write s = .next t) (ht : t.fcode = 0) :
    encodesTo s t (K.code s.val) := by
  rw [K.exec_write h0] at h
  refine (varEnc_eq_next.mp h).resolve_right ?_
  rintro ⟨-, rfl⟩
  exact faultCode_ne_zero .ovfCap ht

end VarKind

/-- Settles O50: the bounds are `2 ^ 32 ≤ 2 ^ (7 * 5)` and `2 ^ 64 ≤ 2 ^ (7 * 10)`. -/
theorem varintByteCount : Obligations.VarintByteCount := by
  refine ⟨fun v => ⟨isVarCount_iff.mpr rfl, fun k => isVarCount_iff.mp, varCount_le_of_lt (by decide) (by decide),
    varCount_le_of_lt (by decide) (by decide)⟩, fun s t i most h0 hmem h ht => ?_⟩
  obtain ⟨K, -, hK⟩ := List.exists_of_mem_map (f := fun K : VarKind => (K.write, K.mostBytes))
    (l := [.u32, .s32, .u64, .s64]) hmem
  cases hK
  obtain ⟨hcap, rfl⟩ := K.encodesTo_of_exec_write h0 h ht
  exact ⟨varCount (K.code s.val), word32_toNat_of_le ((Nat.le_add_left ..).trans hcap), one_le_varCount _,
    K.varCount_code_le s.val⟩

/-- Settles O49: the operand is the kind's code, its bytes are read back one by one. -/
theorem varintWriteResult : Obligations.VarintWriteResult := by
  intro s i w v k h0 hk hmem
  rw [← toNat_zigzag, ← toNat_zigzag, ← BitVec.toNat_setWidth] at hmem
  obtain ⟨K, -, hK⟩ := List.exists_of_mem_map (f := fun K : VarKind => (K.write, encode K.write, K.code s.val))
    (l := VarKind.all) hmem
  cases hK
  obtain rfl := isVarCount_iff.mp hk
  refine ⟨decodeOfEncode K.write, fun hcap => ?_, K.exec_write_of_lt h0⟩
  refine ⟨_, _, _, K.exec_write_of_le h0 hcap, word32_toNat_of_le hcap,
    word32_toNat_of_le ((Nat.le_add_left ..).trans hcap), fun j hj => ?byte, fun b hb => ?bit, fun a ha => ?other⟩
  case byte => rw [getBits_of_le (by omega), fieldAt_putFields_varBytes _ _ hj]
  case bit => rw [streamBit_putFields, varBytes_length, if_neg hb]
  case other => exact readByte_putFields_outside _ _ _ (by rwa [varBytes_length])

end Sys2Proof.Machine

/-! Varint reads and peeks (R147 to R157): in every state the reader either has a whole varint before it or runs out
of whole bytes, and each command of a kind hands on what the decode loop then answers. -/

namespace Sys2Proof.Machine

variable {s : State} {k : Nat}

/-! ## What the decode loop answers (R147, R157) -/

/-- The value of the first `n` bytes at the cursor, cut to the width, with the position after them. -/
abbrev decodesBytes (s : State) (n : Nat) (tr : Bool) : Prop :=
  ∀ W, decodesTo W s (varGroups s.mem s.pos.toNat n % 2 ^ W) (s.pos.toNat + 8 * n) tr

theorem decodesBytes_of_terminated (hcap : s.pos.toNat + 8 * (k + 1) ≤ s.capBits) (h : varTerminated s k) :
    decodesBytes s (k + 1) false := by
  obtain ⟨hk, hc, ht⟩ := h
  intro W
  rw [wholeBytesLeft] at hk
  simpa [varGroups] using varDecLoop_terminated (W := W) _ 0 (Nat.zero_le k) (by omega) hcap hc ht

theorem decodesBytes_of_truncated (hcap : s.pos.toNat + 8 * wholeBytesLeft s ≤ s.capBits) (h : varTruncated s) :
    decodesBytes s (wholeBytesLeft s) true := by
  intro W
  simpa [varGroups, wholeBytesLeft] using
    varDecLoop_truncated (W := W) (wholeBytesLeft s) 0 (by omega) (by rwa [Nat.zero_add])

/-! The bytes decoded lie below `RLEN`. -/

theorem terminatedBytes_le (h : varTerminated s k) : s.pos.toNat + 8 * (k + 1) ≤ s.rlen.toNat := by
  obtain ⟨hk, -, -⟩ := h
  rw [wholeBytesLeft] at hk
  omega

theorem wholeBytes_le (hp : s.pos.toNat ≤ s.rlen.toNat) : s.pos.toNat + 8 * wholeBytesLeft s ≤ s.rlen.toNat := by
  unfold wholeBytesLeft
  omega

/-- Either some whole byte left ends a varint, the first such byte, or none does. -/
theorem varTruncated_or_terminated (s : State) : varTruncated s ∨ ∃ k, varTerminated s k := by
  by_cases h : ∃ k, k < wholeBytesLeft s ∧ fieldAt s.mem (s.pos.toNat + 8 * k) 8 < 128
  · obtain ⟨hk, hlast⟩ := Nat.find_spec h
    refine .inr ⟨Nat.find h, hk, fun i hi => ?_, hlast⟩
    exact Nat.not_lt.mp fun hc => Nat.find_min h hi ⟨hi.trans hk, hc⟩
  · exact .inl fun i hi => Nat.not_lt.mp fun hc => h ⟨i, hi, hc⟩

/-- A reader within `MEM` decodes bytes below `RLEN`, and leaves fewer than 8 bits when the varint is cut short. -/
theorem exists_decodesBytes (hp : s.pos.toNat ≤ s.rlen.toNat) (hr : s.rlen.toNat ≤ s.capBits) :
    ∃ n tr, decodesBytes s n tr ∧ s.pos.toNat + 8 * n ≤ s.rlen.toNat ∧
      (tr = true → s.rlen.toNat - (s.pos.toNat + 8 * n) < 8) := by
  rcases varTruncated_or_terminated s with h | ⟨k, h⟩
  · have hle := wholeBytes_le hp
    refine ⟨_, true, decodesBytes_of_truncated (hle.trans hr) h, hle, fun _ => ?_⟩
    rw [wholeBytesLeft]
    omega
  · have hle := terminatedBytes_le h
    exact ⟨_, false, decodesBytes_of_terminated (hle.trans hr) h, hle, nofun⟩

/-! ## The commands of a kind (R148) -/

namespace VarKind

variable (K : VarKind) {n : Nat} {tr : Bool}

/-- What the kind puts into `VAL` for the `n` bytes at the cursor: their groups cut to the width (R147, R148, R157). -/
def readValue (s : State) (n : Nat) : Word64 :=
  BitVec.ofInt 64 (K.reading (varGroups s.mem s.pos.toNat n % 2 ^ K.width))

theorem result_groups (s : State) (n : Nat) :
    K.result (varGroups s.mem s.pos.toNat n % 2 ^ K.width) = K.readValue s n :=
  K.result_eq_ofInt_reading (Nat.mod_lt _ (Nat.two_pow_pos _))

theorem exec_read_of_decodes (h0 : s.fcode = 0) (hd : decodesBytes s n tr) :
    exec K.read s = .next { s with
      val := K.readValue s n, cnt := word32 (8 * n), trunc := tr, pos := word32 (s.pos.toNat + 8 * n) } := by
  rw [K.exec_read h0, varDec_eq_next]
  refine ⟨_, _, _, hd K.width, ?_⟩
  rw [State.consumedVar, result_groups, Nat.add_sub_cancel_left]

theorem exec_peek_of_decodes (h0 : s.fcode = 0) (hd : decodesBytes s n tr) :
    exec K.peek s = .next { s with val := K.readValue s n, cnt := word32 (8 * n), trunc := tr } := by
  rw [K.exec_peek h0, varDec_eq_next]
  refine ⟨_, _, _, hd K.width, ?_⟩
  rw [State.peekedVar, result_groups, Nat.add_sub_cancel_left]

/-- Bytes that lie below `RLEN` are counted and passed without wrap. -/
theorem exists_of_decodes (h0 : s.fcode = 0) (hd : decodesBytes s n tr) (hn : s.pos.toNat + 8 * n ≤ s.rlen.toNat) :
    ∃ p c : Word32, p.toNat = s.pos.toNat + 8 * n ∧ c.toNat = 8 * n ∧
      exec K.read s = .next { s with val := K.readValue s n, cnt := c, trunc := tr, pos := p } ∧
      exec K.peek s = .next { s with val := K.readValue s n, cnt := c, trunc := tr } :=
  ⟨_, _, word32_toNat_of_le_word hn, word32_toNat_of_le_word ((Nat.le_add_left ..).trans hn),
    K.exec_read_of_decodes h0 hd, K.exec_peek_of_decodes h0 hd⟩

end VarKind

/-- The commands of the statements, kind by kind: read, peek and the number that goes to `VAL` for the groups `g`. -/
theorem exists_kind_of_mem {read peek : Instr} {v : Int} {g : Nat}
    (h : (read, peek, v) ∈
      [(Instr.rvu32, Instr.pvu32, ((g % 2 ^ 32 : Nat) : Int)), (Instr.rvu64, Instr.pvu64, ((g % 2 ^ 64 : Nat) : Int)),
       (Instr.rvs32, Instr.pvs32, unzigzagOf (g % 2 ^ 32)), (Instr.rvs64, Instr.pvs64, unzigzagOf (g % 2 ^ 64))]) :
    ∃ K : VarKind, read = K.read ∧ peek = K.peek ∧ v = K.reading (g % 2 ^ K.width) := by
  obtain ⟨K, -, hK⟩ := List.exists_of_mem_map
    (f := fun K : VarKind => (K.read, K.peek, K.reading (g % 2 ^ K.width))) (l := VarKind.all) h
  cases hK
  exact ⟨K, rfl, rfl, rfl⟩

theorem exists_kind_of_mem_reads {i : Instr}
    (h : i ∈ [Instr.rvu32, .rvu64, .rvs32, .rvs64, .pvu32, .pvu64, .pvs32, .pvs64]) :
    ∃ K : VarKind, i = K.read ∨ i = K.peek := by
  rcases (List.mem_append (s := VarKind.all.map VarKind.read) (t := VarKind.all.map VarKind.peek)).mp h with h | h
  · obtain ⟨K, -, rfl⟩ := List.exists_of_mem_map h
    exact ⟨K, .inl rfl⟩
  · obtain ⟨K, -, rfl⟩ := List.exists_of_mem_map h
    exact ⟨K, .inr rfl⟩

/-! ## The statements -/

/-- Settles O52: the decode loop stops behind the byte that ends the varint, over-long or not. -/
theorem varintReadTerminated : Obligations.VarintReadTerminated := by
  intro s k h0 hr hterm read peek v hmem
  obtain ⟨K, rfl, rfl, rfl⟩ := exists_kind_of_mem hmem
  have hle := terminatedBytes_le hterm
  exact K.exists_of_decodes h0 (decodesBytes_of_terminated (hle.trans hr) hterm) hle

/-- Settles O53: the decode loop takes all the whole bytes, none of which ends the varint. -/
theorem varintReadTruncated : Obligations.VarintReadTruncated := by
  intro s h0 hp hr htrunc read peek v hmem
  obtain ⟨K, rfl, rfl, rfl⟩ := exists_kind_of_mem hmem
  have hle := wholeBytes_le hp
  exact K.exists_of_decodes h0 (decodesBytes_of_truncated (hle.trans hr) htrunc) hle

/-- Settles O54: the decode loop answers in every such state, and what it decodes lies below `RLEN`. -/
theorem varintReadsNeverFault : Obligations.VarintReadsNeverFault := by
  intro s i h0 hp hr hmem
  obtain ⟨n, tr, hd, hle, hrest⟩ := exists_decodesBytes hp hr
  obtain ⟨K, hi⟩ := exists_kind_of_mem_reads hmem
  obtain ⟨p, c, hpos, hcnt, hread, hpeek⟩ := K.exists_of_decodes h0 hd hle
  have hmod : c.toNat % 8 = 0 := by omega
  rw [← hcnt] at hrest
  rcases hi with rfl | rfl
  · exact ⟨_, hread, h0, (Nat.le_add_right ..).trans hpos.ge, hpos.trans_le hle, hmod, hrest⟩
  · exact ⟨_, hpeek, h0, le_rfl, hp, hmod, hrest⟩

end Sys2Proof.Machine

/-! Varint round trips (R158): the bytes that a write laid are the groups of its operand, the last one without the
continuation bit, so the read of the same kind accumulates the operand again. -/

namespace Sys2Proof.Machine

/-- The first `n` bytes of a varint carry the low `7n` bits of the value (R140). -/
theorem varGroups_putFields_varBytes (m : List Host.Cell) (off : Nat) {v n : Nat} (hn : n ≤ varCount v) :
    varGroups (putFields m off (varBytes v)) off n = v % 2 ^ (7 * n) := by
  induction n with
  | zero => rw [varGroups, Nat.mul_zero, pow_zero, Nat.mod_one]
  | succ n ih =>
    have hgroup : (v / 2 ^ (7 * n) % 128 + if n + 1 < varCount v then 128 else 0) % 128 = v / 2 ^ (7 * n) % 128 := by
      split <;> omega
    rw [varGroups, ih (by omega), fieldAt_putFields_varBytes m off hn, hgroup, Nat.mul_succ, Nat.pow_add, Nat.mod_mul,
      Nat.mul_comm (2 ^ (7 * n))]

variable {s t r : State} {v : Nat}

/-- A reader at the offset of a varint that was written, with the whole of it below `RLEN`. -/
structure ReadsBack (s t r : State) : Prop where
  mem : r.mem = t.mem
  cap : r.capBytes = t.capBytes
  pos : r.pos = s.len
  below : t.len.toNat ≤ r.rlen.toNat

/-- Such a reader decodes the value written, in as many bytes as were written. -/
theorem decodesBytes_of_encodesTo (h : encodesTo s t v) (hr : ReadsBack s t r) :
    decodesBytes r (varCount v) false ∧ varGroups r.mem r.pos.toNat (varCount v) = v := by
  obtain ⟨hcap, rfl⟩ := h
  obtain ⟨hmem, hbytes, hpos, hbelow⟩ := hr
  have hone := one_le_varCount v
  rw [written_len, word32_toNat_of_le hcap] at hbelow
  rw [written_mem] at hmem
  have hbyte : ∀ j < varCount v, fieldAt r.mem (r.pos.toNat + 8 * j) 8 =
      v / 2 ^ (7 * j) % 128 + if j + 1 < varCount v then 128 else 0 := by
    intro j hj
    rw [hmem, hpos, fieldAt_putFields_varBytes _ _ hj]
  refine ⟨?_, ?_⟩
  · have hterm : varTerminated r (varCount v - 1) := by
      refine ⟨?_, fun i hi => ?_, ?_⟩
      · rw [wholeBytesLeft, hpos]
        omega
      · rw [hbyte i (by omega), if_pos (by omega)]
        omega
      · rw [hbyte _ (by omega), if_neg (by omega)]
        omega
    have hbits : r.capBits = s.capBits := by rw [State.capBits, hbytes, written_capBytes, State.capBits]
    have := decodesBytes_of_terminated (by rw [hpos, hbits]; omega) hterm
    rwa [Nat.sub_add_cancel hone] at this
  · rw [hmem, hpos, varGroups_putFields_varBytes _ _ le_rfl, Nat.mod_eq_of_lt (lt_of_varCount v)]

/-- A kind reads the groups of its own code back as the operand (R158). -/
theorem VarKind.readValue_of_groups (K : VarKind) {n : Nat} {x : Word64}
    (h : varGroups r.mem r.pos.toNat n = K.code x) : K.readValue r n = K.extended x := by
  rw [readValue, h, Nat.mod_eq_of_lt (K.code_lt x), ← K.result_eq_ofInt_reading (K.code_lt x), K.result_code]

/-- Settles O55: the write laid the code of its kind, which the read of that kind takes back. -/
theorem varintRoundTrip : Obligations.VarintRoundTrip := by
  intro s t r write read v h0 hmem _ hwrite ht hm hcap hr0 hpos hbelow
  obtain ⟨K, -, hK⟩ := List.exists_of_mem_map (f := fun K : VarKind => (K.write, K.read, K.extended s.val))
    (l := VarKind.all) hmem
  cases hK
  have henc := K.encodesTo_of_exec_write h0 hwrite ht
  obtain ⟨hd, hgroups⟩ := decodesBytes_of_encodesTo henc ⟨hm, hcap, hpos, hbelow⟩
  obtain ⟨-, rfl⟩ := henc
  refine ⟨_, K.exec_read_of_decodes hr0 hd, K.readValue_of_groups hgroups, rfl, ?_, rfl⟩
  rw [hpos, written_len]

end Sys2Proof.Machine

/-! The ranged family (43_ranged.md): the field width and the value of a ranged integer in numbers (R170), what each
command of the family does (R171 to R173), the laws of the family (R174). -/

namespace Sys2Proof.Machine

/-! ## Spans and widths (R170) -/

section

variable {lo v hi : Word64}

theorem span_le_span (h : inRange lo v hi) : span lo v ≤ span lo hi :=
  Int.toNat_le_toNat (Int.sub_le_sub_right h.2 _)

/-- The value written of an operand in the range fits the field (R171). -/
theorem span_lt_two_pow_rangedBits (h : inRange lo v hi) : span lo v < 2 ^ rangedBits lo hi :=
  (span_le_span h).trans_lt (lt_two_pow_bitlen _)

/-- `LO` and the integer difference `v - lo` make up the pattern of `v`: the reader's sum undoes the writer's
difference (R172, R174). -/
theorem add_ofNat_span (h : lo.toInt ≤ v.toInt) : lo + BitVec.ofNat 64 (span lo v) = v := by
  have hsum : lo.toInt + (span lo v : Int) = v.toInt := by
    rw [span, Int.toNat_of_nonneg (Int.sub_nonneg_of_le h), add_sub_cancel]
  calc lo + BitVec.ofNat 64 (span lo v)
      = BitVec.ofInt 64 lo.toInt + BitVec.ofInt 64 (span lo v : Int) := by
        rw [BitVec.ofInt_toInt, BitVec.ofInt_natCast]
    _ = BitVec.ofInt 64 v.toInt := by rw [← BitVec.ofInt_add, hsum]
    _ = v := BitVec.ofInt_toInt

/-! Spans from 0: below the sign bit the signed reading is the unsigned one. -/

theorem toInt_eq_toNat_of_lt_sign (h : v.toNat < 2 ^ 63) : v.toInt = v.toNat :=
  BitVec.toInt_eq_toNat_of_lt (by omega)

theorem span_zero (h : v.toNat < 2 ^ 63) : span 0 v = v.toNat := by
  rw [span, toInt_eq_toNat_of_lt_sign h]
  simp

theorem inRange_zero (hv : v.toNat ≤ hi.toNat) (h : hi.toNat < 2 ^ 63) : inRange 0 v hi := by
  rw [inRange, toInt_eq_toNat_of_lt_sign h, toInt_eq_toNat_of_lt_sign (hv.trans_lt h)]
  simpa using hv

theorem bitlen_two_pow_sub_one (n : Nat) : bitlen (2 ^ n - 1) = n :=
  (isBitlen_iff.mp ⟨Nat.sub_one_lt (Nat.two_pow_pos n).ne',
    fun _ hc => Nat.le_sub_one_of_lt (Nat.pow_lt_pow_right (by decide) hc)⟩).symm

end

/-! ## The commands that pass their tests -/

section

variable {s t : State} {i : Instr}

theorem exec_wrr (h0 : s.fcode = 0) (hv : inRange s.lo s.val s.hi)
    (hcap : s.len.toNat + rangedBits s.lo s.hi ≤ s.capBits) :
    exec .wrr s =
      .next (s.written (putField s.mem s.len.toNat (rangedBits s.lo s.hi) (span s.lo s.val))
        (s.len.toNat + rangedBits s.lo s.hi) (rangedBits s.lo s.hi)) :=
  exec_of_effect (.inr h0) ⟨hv, hcap, rfl⟩

theorem exec_rdr (h0 : s.fcode = 0) (h : s.lo.toInt ≤ s.hi.toInt) (hr : readable s (rangedBits s.lo s.hi)) :
    exec .rdr s =
      .next (s.consumed (s.lo + BitVec.ofNat 64 (fieldAt s.mem s.pos.toNat (rangedBits s.lo s.hi)))
        (rangedBits s.lo s.hi)) :=
  exec_of_effect (.inr h0) ⟨h, hr, rfl⟩

theorem exec_pkr (h0 : s.fcode = 0) (h : s.lo.toInt ≤ s.hi.toInt) (hr : readable s (rangedBits s.lo s.hi)) :
    exec .pkr s =
      .next (s.peeked (s.lo + BitVec.ofNat 64 (fieldAt s.mem s.pos.toNat (rangedBits s.lo s.hi)))
        (rangedBits s.lo s.hi)) :=
  exec_of_effect (.inr h0) ⟨h, hr, rfl⟩

/-- A command that completes without a fault does so by its effect. -/
theorem effect_of_exec (h0 : s.fcode = 0) (h : exec i s = .next t) (ht : t.fcode = 0) : Effect i s t := by
  rcases exec_next h with ⟨-, hf, -⟩ | ⟨-, f, rfl⟩ | ⟨-, heff⟩
  · exact absurd h0 hf
  · exact absurd ht (faultCode_ne_zero f)
  · exact heff

/-! ## The commands that fail a test: `DOMAIN` before the bounds (R187) -/

theorem exec_wrr_of_not_inRange (h0 : s.fcode = 0) (hv : ¬inRange s.lo s.val s.hi) :
    exec .wrr s = raise .domain (encode .wrr) s :=
  (gated_of_zero h0).trans (if_neg hv)

theorem exec_wrr_of_lt (h0 : s.fcode = 0) (hv : inRange s.lo s.val s.hi)
    (hcap : s.capBits < s.len.toNat + rangedBits s.lo s.hi) : exec .wrr s = raise .ovfCap (encode .wrr) s :=
  (gated_of_zero h0).trans ((if_pos hv).trans (fits_of_lt hcap))

theorem exec_rangedRead_of_domain (h0 : s.fcode = 0) (h : s.hi.toInt < s.lo.toInt) :
    exec .rdr s = raise .domain (encode .rdr) s ∧ exec .pkr s = raise .domain (encode .pkr) s :=
  ⟨(gated_of_zero h0).trans (if_pos h), (gated_of_zero h0).trans (if_pos h)⟩

theorem exec_rangedRead_of_lt (h0 : s.fcode = 0) (h : s.lo.toInt ≤ s.hi.toInt)
    (hlt : s.rlen.toNat < s.pos.toNat + rangedBits s.lo s.hi) :
    exec .rdr s = raise .ovfRead (encode .rdr) s ∧ exec .pkr s = raise .ovfRead (encode .pkr) s :=
  ⟨(gated_of_zero h0).trans ((if_neg (Int.not_lt.mpr h)).trans (remaining_of_lt hlt)),
    (gated_of_zero h0).trans ((if_neg (Int.not_lt.mpr h)).trans (remaining_of_lt hlt))⟩

end

/-! ## The statements (R171 to R174) -/

/-- Settles O56: the range test, the capacity test, and the span from `LO` to `VAL` as a field at `LEN`. -/
theorem wrrResult : Obligations.WrrResult := by
  intro s nb h0
  refine ⟨decodeOfEncode .wrr, fun hlo hhi hnb => ?inside, fun hout => ?outside⟩
  case inside =>
    obtain rfl : nb = rangedBits s.lo s.hi := isBitlen_iff.mp hnb
    refine ⟨fun hcap => ?_, exec_wrr_of_lt h0 ⟨hlo, hhi⟩⟩
    exact exists_of_exec_written (exec_wrr h0 ⟨hlo, hhi⟩ hcap) hcap (word32_toNat_of_le hcap)
  case outside =>
    refine exec_wrr_of_not_inRange h0 ?_
    rintro ⟨hlo, hhi⟩
    omega

/-- Settles O57: one field, added to `LO` by both commands. -/
theorem rangedReadResult : Obligations.RangedReadResult := by
  intro s nb h0
  refine ⟨decodeOfEncode .rdr, decodeOfEncode .pkr, fun hle hnb => ?_, exec_rangedRead_of_domain h0⟩
  obtain rfl : nb = rangedBits s.lo s.hi := isBitlen_iff.mp hnb
  refine ⟨fun hread hrlen => ?_, exec_rangedRead_of_lt h0 hle⟩
  have hr : readable s (rangedBits s.lo s.hi) := ⟨hread, hread.trans hrlen⟩
  refine ⟨_, getBits_of_le hr.2, _, _, _, exec_rdr h0 hle hr, exec_pkr h0 hle hr, ?_,
    word32_toNat_of_le_word hread, word32_toNat_of_le_word ((Nat.le_add_left ..).trans hread)⟩
  rw [BitVec.toNat_add, BitVec.toNat_ofNat, Nat.add_mod_mod]

/-- Settles O58: the reader's field is the span written, whole, and the reader's width is the writer's. -/
theorem rangedRoundTrip : Obligations.RangedRoundTrip := by
  intro s t r h0 hlo hhi _ hwrite ht hmem hbytes hr0 hrlo hrhi hpos hbelow
  obtain ⟨hv, hcap, rfl⟩ := effect_of_exec h0 hwrite ht
  have hbits : r.capBits = s.capBits := by rw [State.capBits, hbytes, written_capBytes, State.capBits]
  rw [written_len, word32_toNat_of_le hcap] at hbelow
  have hr : readable r (rangedBits r.lo r.hi) := by
    rw [readable, hrlo, hrhi, hpos, hbits]
    exact ⟨hbelow, hcap⟩
  refine ⟨_, exec_rdr hr0 (by rw [hrlo, hrhi]; exact hlo.trans hhi) hr, ?value, ?count, ?width⟩
  case value =>
    rw [consumed_val, hrlo, hrhi, hmem, hpos, written_mem, fieldAt_putField_same,
      Nat.mod_eq_of_lt (span_lt_two_pow_rangedBits hv), add_ofNat_span hlo]
  case count => rw [consumed_cnt, written_cnt, hrlo, hrhi]
  case width =>
    rw [consumed_cnt, hrlo, hrhi, word32_toNat_of_le ((Nat.le_add_left ..).trans hcap)]
    exact isBitlen_iff.mpr rfl

/-- Settles O59: the span from 0 to `2^n - 1` takes `n` bits and the span from 0 to `VAL` is `VAL`, so both commands
store the same field. -/
theorem rangedWriteIsUnsignedWrite : Obligations.RangedWriteIsUnsignedWrite := by
  intro s n h0 h1 h63 hlo hhi hval hcap
  have hsign : s.hi.toNat < 2 ^ 63 :=
    hhi.trans_lt ((Nat.sub_one_lt (Nat.two_pow_pos _).ne').trans_le (Nat.pow_le_pow_right (by decide) h63))
  have hv : inRange s.lo s.val s.hi := hlo ▸ inRange_zero hval hsign
  have hspan : span s.lo s.val = s.val.toNat := by rw [hlo, span_zero (hval.trans_lt hsign)]
  have hwidth : rangedBits s.lo s.hi = n.toNat := by
    rw [rangedBits, hlo, span_zero hsign, hhi, bitlen_two_pow_sub_one]
  rw [exec_wrr h0 hv (hwidth ▸ hcap), exec_wru h0 ⟨h1, h63.trans (by decide)⟩ hcap, hwidth, hspan]

end Sys2Proof.Machine

/-! The faults (60_exceptions.md): a command reports the first test that fails (R187, R191), a fault changes the fault
record alone (R186), which then stays until the `SRST` word (R188, R189), and an engine without work holds its state
(R205). -/

namespace Sys2Proof.Machine

variable {s t : State} {i : Instr}

/-! ## The columns of R191: one test each -/

/-- The column `OVF_CAP` of R191. -/
def CapExceeded (i : Instr) (s : State) : Prop := ∃ last, capNeed s i = some last ∧ s.capBits < last

/-- The column `OVF_READ` of R191; `RSEEK` measures `OFS`, not a count of bits. -/
def ReadExceeded (i : Instr) (s : State) : Prop :=
  (∃ need, readNeed s i = some need ∧ s.rlen.toNat < s.pos.toNat + need) ∨
    (i = .rseek ∧ s.rlen.toNat < s.ofs.toNat)

/-- The test of the column `OVF_CAP` in `firstFault`. -/
theorem capExceeded_iff :
    ((capNeed s i).any fun last => decide (s.capBits < last)) = true ↔ CapExceeded i s := by
  simp [CapExceeded, Option.any_eq_true]

/-- The test of the column `OVF_READ` in `firstFault`. -/
theorem readExceeded_iff :
    (((readNeed s i).any fun need => decide (s.rlen.toNat < s.pos.toNat + need)) || seekPastEnd s i) = true ↔
      ReadExceeded i s := by
  simp [ReadExceeded, seekPastEnd, Option.any_eq_true]

/-- No test of R191 fails. -/
structure TestsPass (i : Instr) (s : State) : Prop where
  count : i.wellFormed = true
  domain : outOfDomain s i = false
  cap : ¬CapExceeded i s
  read : ¬ReadExceeded i s

/-- What the first failing test is, those before it passed (R187); `none` where all pass. -/
inductive FirstFailing (i : Instr) (s : State) : Option FaultClass → Prop where
  | count : i.wellFormed = false → FirstFailing i s (some .ovfNbits)
  | domain : i.wellFormed = true → outOfDomain s i = true → FirstFailing i s (some .domain)
  | cap : i.wellFormed = true → outOfDomain s i = false → CapExceeded i s → FirstFailing i s (some .ovfCap)
  | read : i.wellFormed = true → outOfDomain s i = false → ¬CapExceeded i s → ReadExceeded i s →
      FirstFailing i s (some .ovfRead)
  | none : TestsPass i s → FirstFailing i s none

theorem firstFailing_firstFault (i : Instr) (s : State) : FirstFailing i s (firstFault i s) := by
  unfold firstFault
  split_ifs with hcount hdomain hcap hread
  case pos => exact .count hcount
  all_goals have hcount := Bool.eq_true_of_not_eq_false hcount
  case pos => exact .domain hcount hdomain
  all_goals have hdomain := Bool.eq_false_of_not_eq_true hdomain
  case pos => exact .cap hcount hdomain (capExceeded_iff.mp hcap)
  all_goals have hcap := mt capExceeded_iff.mpr hcap
  case pos => exact .read hcount hdomain hcap (readExceeded_iff.mp hread)
  case neg => exact .none ⟨hcount, hdomain, hcap, mt readExceeded_iff.mpr hread⟩

/-! ## What the tests say of the operands -/

theorem inRange_of_domain (h : outOfDomain s .wrr = false) : inRange s.lo s.val s.hi := by
  have := of_decide_eq_false h
  constructor <;> omega

theorem TestsPass.cap_le (h : TestsPass i s) {last : Nat} (hl : capNeed s i = some last) : last ≤ s.capBits :=
  Nat.not_lt.mp fun hlt => h.cap ⟨last, hl, hlt⟩

theorem TestsPass.read_le (h : TestsPass i s) {need : Nat} (hn : readNeed s i = some need) :
    s.pos.toNat + need ≤ s.rlen.toNat :=
  Nat.not_lt.mp fun hlt => h.read (.inl ⟨need, hn, hlt⟩)

theorem TestsPass.readable (h : TestsPass i s) (hr : s.rlen.toNat ≤ s.capBits) {need : Nat}
    (hn : readNeed s i = some need) : readable s need :=
  ⟨h.read_le hn, (h.read_le hn).trans hr⟩

theorem TestsPass.ofs_le (h : TestsPass .rseek s) : s.ofs.toNat ≤ s.rlen.toNat :=
  Nat.not_lt.mp fun hlt => h.read (.inr ⟨rfl, hlt⟩)

/-! ## A test that fails -/

theorem exec_of_outOfDomain (h0 : s.fcode = 0) (h : outOfDomain s i = true) :
    exec i s = raise .domain (encode i) s := by
  cases i with
  | wrr =>
    have hout := of_decide_eq_true h
    exact exec_wrr_of_not_inRange h0 fun ⟨hlo, hhi⟩ => by omega
  | rdr => exact (exec_rangedRead_of_domain h0 (of_decide_eq_true h)).1
  | pkr => exact (exec_rangedRead_of_domain h0 (of_decide_eq_true h)).2
  | _ => cases h

theorem exec_of_capExceeded (h0 : s.fcode = 0) (hcount : i.wellFormed = true) (hdomain : outOfDomain s i = false)
    (h : CapExceeded i s) : exec i s = raise .ovfCap (encode i) s := by
  obtain ⟨last, hneed, hlt⟩ := h
  cases i with
  | wimp => cases hneed; exact exec_wimp_of_lt h0 hlt
  | pad n | wru n | wruat n | wrs n => cases hneed; exact counted_fits_of_lt h0 (of_decide_eq_true hcount) hlt
  | wvu32 => cases hneed; exact VarKind.u32.exec_write_of_lt h0 hlt
  | wvu64 => cases hneed; exact VarKind.u64.exec_write_of_lt h0 hlt
  | wvs32 => cases hneed; exact VarKind.s32.exec_write_of_lt h0 hlt
  | wvs64 => cases hneed; exact VarKind.s64.exec_write_of_lt h0 hlt
  | wrr => cases hneed; exact exec_wrr_of_lt h0 (inRange_of_domain hdomain) hlt
  | _ => cases hneed

theorem exec_of_readExceeded (h0 : s.fcode = 0) (hcount : i.wellFormed = true) (hdomain : outOfDomain s i = false)
    (h : ReadExceeded i s) : exec i s = raise .ovfRead (encode i) s := by
  obtain ⟨need, hneed, hlt⟩ | ⟨rfl, hlt⟩ := h
  case inr => exact exec_rseek_of_lt h0 hlt
  cases i with
  | rpadb => cases hneed; exact exec_rpadb_of_lt h0 hlt
  | rskip n => cases hneed; exact exec_rskip_of_lt h0 (of_decide_eq_true hcount) hlt
  | rdu n | pku n | rds n | pks n =>
    cases hneed; exact counted_fetchField_of_lt h0 (of_decide_eq_true hcount) hlt
  | rdr => cases hneed; exact (exec_rangedRead_of_lt h0 (Int.not_lt.mp (of_decide_eq_false hdomain)) hlt).1
  | pkr => cases hneed; exact (exec_rangedRead_of_lt h0 (Int.not_lt.mp (of_decide_eq_false hdomain)) hlt).2
  | _ => cases hneed

/-- A command raises the first fault of the table. -/
theorem exec_of_firstFault (h0 : s.fcode = 0) {f : FaultClass} (h : firstFault i s = some f) :
    exec i s = raise f (encode i) s := by
  have hfirst := firstFailing_firstFault i s
  rw [h] at hfirst
  cases hfirst with
  | count hcount => exact exec_of_not_wellFormed h0 hcount
  | domain _ hdomain => exact exec_of_outOfDomain h0 hdomain
  | cap hcount hdomain hcap => exact exec_of_capExceeded h0 hcount hdomain hcap
  | read hcount hdomain _ hread => exact exec_of_readExceeded h0 hcount hdomain hread

/-! ## No test that fails -/

theorem testsPass_of_firstFault (h : firstFault i s = none) : TestsPass i s := by
  have hfirst := firstFailing_firstFault i s
  rw [h] at hfirst
  cases hfirst with
  | none hpass => exact hpass

/-- The decode loop answers wherever `RLEN` lies in `MEM`: a reader past `RLEN` has no byte left. -/
theorem exists_decodesTo (hr : s.rlen.toNat ≤ s.capBits) (W : Nat) : ∃ acc p tr, decodesTo W s acc p tr := by
  rcases Nat.le_total s.pos.toNat s.rlen.toNat with hp | hp
  · obtain ⟨n, tr, hd, -⟩ := exists_decodesBytes hp hr
    exact ⟨_, _, tr, hd W⟩
  · have hnone : (s.rlen.toNat - s.pos.toNat) / 8 = 0 := by omega
    exact ⟨0, s.pos.toNat, true, by rw [decodesTo, hnone, varDecLoop]⟩

/-- The tests of R191 are all that stands between a command and its effect. -/
theorem TestsPass.exists_effect (h : TestsPass i s) (hr : s.rlen.toNat ≤ s.capBits) : ∃ t, Effect i s t := by
  have hcount := h.count
  have hdomain := h.domain
  cases i with
  | srst | wnew | ropen | ropenb | padb => exact ⟨_, rfl⟩
  | wimp | wvu32 | wvu64 | wvs32 | wvs64 => exact ⟨_, h.cap_le rfl, rfl⟩
  | rseek => exact ⟨_, h.ofs_le, rfl⟩
  | pad n | wru n | wruat n | wrs n => exact ⟨_, of_decide_eq_true hcount, h.cap_le rfl, rfl⟩
  | rpadb => exact ⟨_, h.read_le rfl, rfl⟩
  | rskip n => exact ⟨_, of_decide_eq_true hcount, h.read_le rfl, rfl⟩
  | rdu n | pku n | rds n | pks n => exact ⟨_, of_decide_eq_true hcount, h.readable hr rfl, rfl⟩
  | rvu32 | rvs32 | pvu32 | pvs32 =>
    obtain ⟨acc, p, tr, hd⟩ := exists_decodesTo hr 32
    exact ⟨_, acc, p, tr, hd, rfl⟩
  | rvu64 | rvs64 | pvu64 | pvs64 =>
    obtain ⟨acc, p, tr, hd⟩ := exists_decodesTo hr 64
    exact ⟨_, acc, p, tr, hd, rfl⟩
  | wrr => exact ⟨_, inRange_of_domain hdomain, h.cap_le rfl, rfl⟩
  | rdr | pkr => exact ⟨_, Int.not_lt.mp (of_decide_eq_false hdomain), h.readable hr rfl, rfl⟩

/-- No update of a command enters the faulted state (R186: only `raise` writes `FCODE`, `SRST` clears it). -/
theorem Change.fcode_eq_zero (hc : Change i s t) (h0 : s.fcode = 0) : t.fcode = 0 := by
  cases hc with
  | softReset => rfl
  | _ => exact h0

theorem effect_fcode (h : Effect i s t) (h0 : s.fcode = 0) : t.fcode = 0 := (change_of_effect h).fcode_eq_zero h0

/-- Settles O17: by the first test that fails, or by the effect where none does. -/
theorem firstFailingTestReported : Obligations.FirstFailingTestReported := by
  intro s i h0 hr
  refine ⟨fun f hf => exec_of_firstFault h0 hf, fun hf => ?_⟩
  obtain ⟨t, heff⟩ := (testsPass_of_firstFault hf).exists_effect hr
  exact ⟨t, exec_of_effect (.inr h0) heff, effect_fcode heff h0⟩

/-! ## Fault entry (R186) -/

/-- A word that leaves an engine faulted has recorded a fault, with itself as `FCMD`, and done nothing else. -/
theorem performCmd_faulted {w : Word32} (h0 : s.fcode = 0) (he : performCmd w s = .next t) (ht : t.fcode ≠ 0) :
    ∃ f, t = s.recordFault f w := by
  cases hd : decode w with
  | ok i =>
    obtain rfl := decode_eq_ok_iff.mp hd
    rw [performCmd_of_decode hd] at he
    rcases exec_next he with ⟨-, hf, -⟩ | ⟨-, hrecord⟩ | ⟨-, heff⟩
    · exact absurd h0 hf
    · exact hrecord
    · exact absurd (effect_fcode heff h0) ht
  | error e =>
    rw [performCmd_of_illegal hd, gated_of_zero h0, raise_eq_next] at he
    exact ⟨.illegal, he⟩

/-- Settles O18. -/
theorem faultRecordsOnly : Obligations.FaultRecordsOnly := by
  intro s t w rest hp h0 he ht
  exact performCmd_faulted (s := s.withPending rest) h0 ((step_of_pending hp).symm.trans he) ht

/-! ## The faulted state (R188, R189, R205) -/

/-- The transaction issues the command word `w`: as `Cmd`, or as a write of register 4 (R36, R38). -/
def Transaction.Issues (tr : Transaction) (w : Word32) : Prop :=
  tr = .cmd w ∨ ∃ v : Word64, low32 v = w ∧ tr = .writeReg 4 v

/-- A transaction issues a command word or leaves the fault record alone. -/
theorem perform_cases {tr : Transaction} (he : perform tr s = .next t) :
    (∃ w, tr.Issues w ∧ performCmd w s = .next t) ∨ (t.fcode = s.fcode ∧ t.fcmd = s.fcmd) := by
  cases tr with
  | writeReg r v =>
    rw [perform] at he
    rcases writeReg_cases r with rfl | rfl | rfl | rfl | rfl | hr
    · cases he; exact .inr ⟨rfl, rfl⟩
    · cases he; exact .inr ⟨rfl, rfl⟩
    · cases he; exact .inr ⟨rfl, rfl⟩
    · cases he; exact .inr ⟨rfl, rfl⟩
    · exact .inl ⟨low32 v, .inr ⟨v, rfl, rfl⟩, he⟩
    · rw [performWriteReg_readOnly v hr] at he; cases he; exact .inr ⟨rfl, rfl⟩
  | readReg r => cases he; exact .inr ⟨rfl, rfl⟩
  | cmd w => exact .inl ⟨w, .inl rfl, he⟩
  | memRd a =>
    rw [perform] at he
    rcases Nat.lt_or_ge a s.capBytes.val with ha | ha
    · rw [performMemRd_inside ha] at he; cases he; exact .inr ⟨rfl, rfl⟩
    · rw [performMemRd_outside ha] at he; cases he; exact .inr ⟨rfl, rfl⟩
  | memWr a b =>
    rw [perform] at he
    rcases Nat.lt_or_ge a s.capBytes.val with ha | ha
    · rw [performMemWr_inside b ha] at he; cases he; exact .inr ⟨rfl, rfl⟩
    · rw [performMemWr_outside b ha] at he; cases he; exact .inr ⟨rfl, rfl⟩

/-- Of the words only `SRST`'s does anything to a faulted engine, which it resets (R84, R100). -/
theorem performCmd_next_of_faulted {w : Word32} (hs : s.fcode ≠ 0) (he : performCmd w s = .next t) :
    t = s ∨ (w = encode .srst ∧ t = s.softReset) := by
  by_cases hw : w = encode .srst
  · subst hw
    rw [performCmd_of_decode (decodeOfEncode .srst)] at he
    cases he
    exact .inr ⟨rfl, rfl⟩
  · rw [performCmd_of_faulted hw hs] at he
    cases he
    exact .inl rfl

/-- Settles O19: by the next transaction, a word by what it does to a faulted engine. -/
theorem faultedUntilSoftReset : Obligations.FaultedUntilSoftReset := by
  intro s t hs he
  cases hp : s.pending with
  | nil => rw [step_of_idle hp] at he; cases he; exact .inl ⟨rfl, rfl⟩
  | cons tr rest =>
    rw [step_of_pending hp] at he
    rcases perform_cases he with ⟨w, hissues, hcmd⟩ | hkept
    · rcases performCmd_next_of_faulted (s := s.withPending rest) hs hcmd with rfl | ⟨rfl, rfl⟩
      · exact .inl ⟨rfl, rfl⟩
      · refine .inr ⟨⟨rest, ?_⟩, rfl, rfl⟩
        rcases hissues with rfl | ⟨v, hv, rfl⟩
        · exact .inl rfl
        · exact .inr ⟨v, hv, rfl⟩
    · exact .inl hkept

/-- Settles O12. -/
theorem idleEngineHoldsState : Obligations.IdleEngineHoldsState := fun _ => step_of_idle

end Sys2Proof.Machine
